-- ==== Sys2Proof/Word.lean ====
section
/-! DEFINITION. The word types of the machine (10_state.md R20, R22, R27; 30_encoding.md R55, R60, R63).
A vector `v : BitVec n` stands for the spec's N-bit value; the spec's MSB0 bit `v[i]` is `v.getMsbD i` (00_scope.md R8). -/

namespace Sys2Proof

/-- One byte of the program text. -/
abbrev Byte := BitVec 8

/-- A general register or an address: `XLEN` = 64 bits (00_scope.md R7, 10_state.md R20, R27). -/
abbrev Word := BitVec 64

/-- One instruction word, 32 bits (30_encoding.md R55). -/
abbrev Insn := BitVec 32

/-- A 4-bit Condition Register field, and the 4-bit immediates `mask` and `mode` aligned with it (10_state.md R22, R23). -/
abbrev CrField := BitVec 4

/-- The number of a general register, a 5-bit field (30_encoding.md R60). -/
abbrev GprNum := BitVec 5

/-- The number of a CR field, a 3-bit field (30_encoding.md R63). -/
abbrev CrfNum := BitVec 3

end Sys2Proof
end

