-- ==== Sys2Proof/Config.lean ====
section
/-! DEFINITION. What a launch fixes for a whole run (00_scope.md R7, 10_state.md R32): the two configuration values
`XO_HI` and `INSN_ENDIAN` and the place and length of the program text. The spec leaves all four OPEN; State carries
them (log 6), so a statement about every state holds for every value of each. -/

namespace Sys2Proof

/-- `INSN_ENDIAN`, the byte order in which an instruction word lies in memory (20_memory.md R42, decision D11). -/
inductive Endian where
  | big
  | little
deriving DecidableEq, Repr

/-- The launch parameters (10_state.md R32). -/
structure Config where
  /-- `XO_HI`: the value a word needs in `insn[21:25]` (30_encoding.md R58, decision D1). -/
  xoHi : BitVec 5
  /-- `INSN_ENDIAN` (20_memory.md R42). -/
  insnEndian : Endian
  /-- `TEXT_BASE`: the byte address of the first word of the text (20_memory.md R40). -/
  textBase : Word
  /-- `TEXT_LEN`: how many 32-bit words the text holds (20_memory.md R40). -/
  textLen : Nat
deriving DecidableEq, Repr

/-- The parameters the reset state carries: DESIGN CHOICE, log entries 1, 2 and 3 (no rule gives a value). -/
def Config.atReset : Config :=
  { xoHi := 0#5, insnEndian := .big, textBase := 0#64, textLen := 0 }

end Sys2Proof
end

