-- ==== Sys2Proof/Syntax.lean ====
section
/-! DEFINITION. The instructions: one constructor for each row of spec/opcode_table.json. Operands stand in the
order of the syntax lines of 30_encoding.md R71. The last three rows are assembler names for `mtcrweird` words
(44_pseudo_ops.md R120 to R122): the decoder never answers with them (R67, R123; log 9). -/

namespace Sys2Proof

/-- An instruction. `m` is the bit `M`, `rc` the record bit `Rc` (30_encoding.md R61, R65). -/
inductive Instr where
  /-- `crrweird RT, BFA, M, mask.mode`; with `rc` the record form `crrweird.` (40_crrweird.md R80). -/
  | crrweird (rt : GprNum) (bfa : CrfNum) (m : Bool) (mask mode : CrField) (rc : Bool)
  /-- `mtcrweird BF, RA, M, mask.mode` (41_mtcrweird.md R90). -/
  | mtcrweird (bf : CrfNum) (ra : GprNum) (m : Bool) (mask mode : CrField)
  /-- `crweirder BT, BFA, M, mask.mode` (43_crweirder.md R110). -/
  | crweirder (bt : BitVec 5) (bfa : CrfNum) (m : Bool) (mask mode : CrField)
  /-- `crweird BF, BFA, M, mask.mode` (42_crweird.md R100). -/
  | crweird (bf bfa : CrfNum) (m : Bool) (mask mode : CrField)
  /-- `mtcri BF, mode` (44_pseudo_ops.md R120). -/
  | mtcri (bf : CrfNum) (mode : CrField)
  /-- `mtcrset BF, mask` (44_pseudo_ops.md R121). -/
  | mtcrset (bf : CrfNum) (mask : CrField)
  /-- `mtcrclr BF, mask` (44_pseudo_ops.md R122). -/
  | mtcrclr (bf : CrfNum) (mask : CrField)
deriving DecidableEq, Repr

end Sys2Proof
end

