-- ==== Sys2Proof/WellFormed.lean ====
section
/-! DEFINITION. Well-formedness, at the two places the spec gives a bound. An instruction's operands fit their
fields (30_encoding.md R56, R60 to R65; every value that fits is legal, 60_exceptions.md R152): the operand types
already enforce it, and Laws/Encoding.lean says so once. A line of assembler is written with plain numbers, so there the
operand count, kinds and ranges are checked (30_encoding.md R71, R72, R74; 44_pseudo_ops.md R120 to R122). -/

namespace Sys2Proof

/-- Every operand of the instruction is a value its field can hold. -/
def Instr.wellFormed : Instr → Bool
  | .crrweird rt bfa _ mask mode _ =>
    decide (rt.toNat < 32) && decide (bfa.toNat < 8) && decide (mask.toNat < 16) && decide (mode.toNat < 16)
  | .mtcrweird bf ra _ mask mode =>
    decide (bf.toNat < 8) && decide (ra.toNat < 32) && decide (mask.toNat < 16) && decide (mode.toNat < 16)
  | .crweirder bt bfa _ mask mode =>
    decide (bt.toNat < 32) && decide (bfa.toNat < 8) && decide (mask.toNat < 16) && decide (mode.toNat < 16)
  | .crweird bf bfa _ mask mode =>
    decide (bf.toNat < 8) && decide (bfa.toNat < 8) && decide (mask.toNat < 16) && decide (mode.toNat < 16)
  | .mtcri bf mode => decide (bf.toNat < 8) && decide (mode.toNat < 16)
  | .mtcrset bf mask => decide (bf.toNat < 8) && decide (mask.toNat < 16)
  | .mtcrclr bf mask => decide (bf.toNat < 8) && decide (mask.toNat < 16)

/-- The mnemonics an assembler accepts (30_encoding.md R71, R73); `crrweirdDot` is `crrweird.`, the `Rc = 1` form (log 22). -/
inductive Mnemonic where
  | crrweird
  | crrweirdDot
  | mtcrweird
  | crweird
  | crweirder
  | mtcri
  | mtcrset
  | mtcrclr
deriving DecidableEq, Repr

/-- One operand as it is written (30_encoding.md R72, R74). -/
inductive Operand where
  /-- `rN` -/
  | reg (n : Nat)
  /-- `crN` -/
  | crf (n : Nat)
  /-- a bare number -/
  | num (n : Nat)
  /-- `mask.mode`, two numbers with a dot between them -/
  | pair (mask mode : Nat)
deriving DecidableEq, Repr

/-- A line of assembler: a mnemonic and its operands, left to right. -/
structure AsmLine where
  mnemonic : Mnemonic
  operands : List Operand
deriving DecidableEq, Repr

/-- A general register is written `rN`, `N` from 0 to 31 (30_encoding.md R74). -/
def Operand.isGpr : Operand → Bool
  | .reg n => decide (n < 32)
  | _ => false

/-- An `RA` operand: a general register, or the bare number 0 (30_encoding.md R74). -/
def Operand.isRa : Operand → Bool
  | .reg n => decide (n < 32)
  | .num n => decide (n = 0)
  | _ => false

/-- A CR field number 0 to 7, written `N` or `crN` (30_encoding.md R74). -/
def Operand.isCrf : Operand → Bool
  | .crf n => decide (n < 8)
  | .num n => decide (n < 8)
  | _ => false

/-- A number of the 5-bit operand `BT` (30_encoding.md R60). -/
def Operand.isBt : Operand → Bool
  | .num n => decide (n < 32)
  | _ => false

/-- `M` is written 0 or 1 (30_encoding.md R72). -/
def Operand.isM : Operand → Bool
  | .num n => decide (n < 2)
  | _ => false

/-- `mask.mode`, each half 0 to 15 (30_encoding.md R72). -/
def Operand.isMaskMode : Operand → Bool
  | .pair k d => decide (k < 16) && decide (d < 16)
  | _ => false

/-- The one 4-bit number of a pseudo-op, 0 to 15 (44_pseudo_ops.md R120 to R122). -/
def Operand.isNibble : Operand → Bool
  | .num n => decide (n < 16)
  | _ => false

/-- The line has the operands its mnemonic takes, in order, each in range (30_encoding.md R71, R73). -/
def AsmLine.wellFormed (l : AsmLine) : Bool :=
  match l.mnemonic, l.operands with
  | .crrweird, [rt, bfa, m, mm] => rt.isGpr && bfa.isCrf && m.isM && mm.isMaskMode
  | .crrweirdDot, [rt, bfa, m, mm] => rt.isGpr && bfa.isCrf && m.isM && mm.isMaskMode
  | .mtcrweird, [bf, ra, m, mm] => bf.isCrf && ra.isRa && m.isM && mm.isMaskMode
  | .crweird, [bf, bfa, m, mm] => bf.isCrf && bfa.isCrf && m.isM && mm.isMaskMode
  | .crweirder, [bt, bfa, m, mm] => bt.isBt && bfa.isCrf && m.isM && mm.isMaskMode
  | .mtcri, [bf, d] => bf.isCrf && d.isNibble
  | .mtcrset, [bf, k] => bf.isCrf && k.isNibble
  | .mtcrclr, [bf, k] => bf.isCrf && k.isNibble
  | _, _ => false

end Sys2Proof
end

