-- ==== Sys2Proof/Decode.lean ====
section
/-! DEFINITION. Decoding and encoding of the CW-form (30_encoding.md R55 to R69, R75), byte order (20_memory.md R42). -/

namespace Sys2Proof

/-- The `n` bits of `v` that start at MSB0 bit `a`: the spec's slice `v[a : a+n-1]` (00_scope.md R9). -/
def bitsFrom {w : Nat} (v : BitVec w) (a n : Nat) : BitVec n :=
  v.extractLsb' (w - a - n) n

/-- MSB0 bit `i` of `v`, the spec's `v[i]` (00_scope.md R8). -/
def bitAt {w : Nat} (v : BitVec w) (i : Nat) : Bool :=
  v.getMsbD i

/-- Why a word (or a list of bytes) is no instruction (30_encoding.md R67, R68). -/
inductive Illegal where
  /-- `insn[0:5]` is not 19 -/
  | primaryOpcode
  /-- `insn[21:25]` is not `XO_HI` -/
  | extendedOpcode
  /-- `insn[26]`, the 0 of "0 mode", is 1 -/
  | reservedBit26
  /-- `insn[31]` is 1 in an instruction other than `crrweird` -/
  | reservedBit31
  /-- `insn[9:10]` is not 00 in `crweird` -/
  | reservedBits9to10
  /-- fewer than the four bytes of a word -/
  | truncated
deriving DecidableEq, Repr

/-- The word as an instruction or the reason it is none: the total decoder of 30_encoding.md R67. -/
def decodeWord (xoHi : BitVec 5) (insn : Insn) : Except Illegal Instr :=
  if bitsFrom insn 0 6 ≠ 19#6 then .error .primaryOpcode
  else if bitsFrom insn 21 5 ≠ xoHi then .error .extendedOpcode
  else if bitAt insn 26 then .error .reservedBit26
  else
    let s6 := bitsFrom insn 6 5
    let m := bitAt insn 11
    let mask := bitsFrom insn 12 4
    let s16 := bitsFrom insn 16 3
    let sel := bitsFrom insn 19 2
    let mode := bitsFrom insn 27 4
    let rc := bitAt insn 31
    if sel = 0b00#2 then .ok (.crrweird s6 s16 m mask mode rc)
    else if rc then .error .reservedBit31
    else if sel = 0b01#2 then .ok (.mtcrweird s16 s6 m mask mode)
    else if sel = 0b10#2 then .ok (.crweirder s6 s16 m mask mode)
    else if bitsFrom insn 9 2 ≠ 0b00#2 then .error .reservedBits9to10
    else .ok (.crweird (bitsFrom insn 6 3) s16 m mask mode)

/-- The 32-bit word whose bytes at ascending addresses are `b0`, `b1`, `b2`, `b3` (20_memory.md R42). -/
def wordOfBytes (e : Endian) (b0 b1 b2 b3 : Byte) : Insn :=
  match e with
  | .big => (b0.setWidth 32 <<< 24) ||| (b1.setWidth 32 <<< 16) ||| (b2.setWidth 32 <<< 8) ||| b3.setWidth 32
  | .little => (b3.setWidth 32 <<< 24) ||| (b2.setWidth 32 <<< 16) ||| (b1.setWidth 32 <<< 8) ||| b0.setWidth 32

/-- The byte at offset `k` (0 to 3) from the address of a word (20_memory.md R42). -/
def byteOfWord (e : Endian) (insn : Insn) (k : Nat) : Byte :=
  match e with
  | .big => bitsFrom insn (8 * k) 8
  | .little => bitsFrom insn (24 - 8 * k) 8

/-- The four bytes of a word, lowest address first. -/
def bytesOfWord (e : Endian) (insn : Insn) : List Byte :=
  [byteOfWord e insn 0, byteOfWord e insn 1, byteOfWord e insn 2, byteOfWord e insn 3]

/-- Decoding a list of bytes: the first instruction and the bytes after it, total on any list. -/
def decode (cfg : Config) : List Byte → Except Illegal (Instr × List Byte)
  | b0 :: b1 :: b2 :: b3 :: rest =>
    match decodeWord cfg.xoHi (wordOfBytes cfg.insnEndian b0 b1 b2 b3) with
    | .ok i => .ok (i, rest)
    | .error e => .error e
  | _ => .error .truncated

/-- The core instruction an instruction is a name of: a pseudo-op's expansion (44_pseudo_ops.md R120 to R122), any
other instruction itself. -/
def Instr.expand : Instr → Instr
  | .mtcri bf mode => .mtcrweird bf 0#5 false 0b1111#4 (~~~mode)
  | .mtcrset bf mask => .mtcrweird bf 0#5 true mask 0b0000#4
  | .mtcrclr bf mask => .mtcrweird bf 0#5 true mask 0b1111#4
  | i => i

/-- The assembling function of 30_encoding.md R75. -/
def cwForm (s6 : BitVec 5) (m : Bool) (mask : CrField) (s16 : BitVec 3) (sel : BitVec 2) (xoHi : BitVec 5)
    (mode : CrField) (rc : Bool) : Insn :=
  (19#32 <<< 26) ||| (s6.setWidth 32 <<< 21) ||| ((BitVec.ofBool m).setWidth 32 <<< 20) ||| (mask.setWidth 32 <<< 16)
    ||| (s16.setWidth 32 <<< 13) ||| (sel.setWidth 32 <<< 11) ||| (xoHi.setWidth 32 <<< 6) ||| (mode.setWidth 32 <<< 1)
    ||| (BitVec.ofBool rc).setWidth 32

/-- The word of an instruction. Core rows: the layouts of 30_encoding.md R75, `insn[19:20]` as in R59. Pseudo-ops: the
encodings printed in 44_pseudo_ops.md R120 to R122. -/
def encode (xoHi : BitVec 5) : Instr → Insn
  | .crrweird rt bfa m mask mode rc => cwForm rt m mask bfa 0b00#2 xoHi mode rc
  | .mtcrweird bf ra m mask mode => cwForm ra m mask bf 0b01#2 xoHi mode false
  | .crweirder bt bfa m mask mode => cwForm bt m mask bfa 0b10#2 xoHi mode false
  | .crweird bf bfa m mask mode => cwForm (bf.setWidth 5 <<< 2) m mask bfa 0b11#2 xoHi mode false
  | .mtcri bf mode =>
    0x4C0F0800#32 ||| (bf.setWidth 32 <<< 13) ||| ((~~~mode).setWidth 32 <<< 1) ||| (xoHi.setWidth 32 <<< 6)
  | .mtcrset bf mask =>
    0x4C100800#32 ||| (mask.setWidth 32 <<< 16) ||| (bf.setWidth 32 <<< 13) ||| (xoHi.setWidth 32 <<< 6)
  | .mtcrclr bf mask =>
    0x4C10081E#32 ||| (mask.setWidth 32 <<< 16) ||| (bf.setWidth 32 <<< 13) ||| (xoHi.setWidth 32 <<< 6)

/-- The bytes of an instruction in memory, lowest address first. -/
def encodeBytes (cfg : Config) (i : Instr) : List Byte :=
  bytesOfWord cfg.insnEndian (encode cfg.xoHi i)

/-- What the decoder reads from a word given as a number: bit 0 of `w` is the least significant bit of the word, bits
from `nbits` up are 0, and the bytes are laid out as the reset configuration stores them. -/
def decodeTableWord (nbits w : Nat) : Option Instr :=
  match decode Config.atReset (bytesOfWord Config.atReset.insnEndian (BitVec.ofNat 32 (w % 2 ^ nbits))) with
  | .ok (i, _) => some i
  | .error _ => none

end Sys2Proof
end

