-- ==== Sys2Proof/Machine/State.lean ====
section
/-! DEFINITION. The machine's state (10_state.md), its faults (60_exceptions.md) and the other ways a step stops. -/

namespace Sys2Proof.Machine

/-- The two faults of the machine (60_exceptions.md R152). Both are precise and terminal (R150). -/
inductive Fault where
  /-- `FetchFault(pc)`: raised by the fetch when `pc` is no multiple of 4 or lies outside
  `[TEXT_BASE, TEXT_BASE + 4*TEXT_LEN]` (60_exceptions.md R153). Safe: the machine stops. -/
  | fetchFault (pc : Word)
  /-- `IllegalInstruction(pc, insn)`: raised by the decode when the word at `pc` is none of the four instructions
  (60_exceptions.md R151). Safe: the machine stops. -/
  | illegalInstruction (pc : Word) (insn : Insn)
deriving DecidableEq, Repr

/-- The ways a step, or a vectorised operation, stops without a fault. -/
inductive Refusal where
  /-- An instruction that has no meaning yet: no arm of `exec` answers it. Safe. -/
  | notModelled (mnemonic : String)
  /-- Raised by the fetch at `pc = TEXT_BASE + 4*TEXT_LEN`: the run has ended and the state is its final state
  (70_reset_and_hazards.md R173). The third outcome of 60_exceptions.md R150, no refusal of an instruction (log 7). Safe. -/
  | endOfRun
  /-- Raised by `execSv` for a prefixed form the spec gives no behaviour for (45_vectorised.md R138, 93 U13, U14). Safe. -/
  | svNotDescribed (form : String)
  /-- Raised by `execSv` for a register or field number past the end of its file (93 U10). Safe. -/
  | svIndexOutsideFile
  /-- Raised by `execSv` for register files smaller than any machine has (00_scope.md R7: `NCRF >= 8`, `NGPR` = 32). Safe. -/
  | svFilesTooSmall
  /-- Raised by `execSv` for a destination element width other than the default (45_vectorised.md R132, 93 U9). Safe. -/
  | svDestElwidth
  /-- Raised by `execSv` when an element would need a bit past bit 63 of one register or mask (45_vectorised.md R133, 93 U9). Safe. -/
  | svVectorTooLong
deriving DecidableEq, Repr

/-- The state: the registers of 10_state.md R20 to R28, and the launch parameters of R32, which no step changes (log 6). -/
structure State where
  /-- `GPR[0]` to `GPR[31]` (10_state.md R20) -/
  gpr : Vector Word 32
  /-- `CRF[0]` to `CRF[7]` (10_state.md R22) -/
  crf : Vector CrField 8
  /-- `XER_SO` (10_state.md R26) -/
  xerSo : Bool
  /-- the program counter (10_state.md R27) -/
  pc : Word
  /-- `XO_HI`, `INSN_ENDIAN`, `TEXT_BASE`, `TEXT_LEN` (10_state.md R32) -/
  cfg : Config
  /-- the bytes of the program text (20_memory.md R40), in the canonical form of `Memory.wf` -/
  mem : List Host.Cell
deriving DecidableEq, Repr

/-- The machine right after reset: `pc` is `TEXT_BASE` (10_state.md R31). The spec leaves every other register
unspecified; zero is a DESIGN CHOICE (log 4), as are the launch parameters (log 1, 2, 3) and the empty text (log 3). -/
def State.reset : State :=
  { gpr := Vector.replicate 32 0#64
    crf := Vector.replicate 8 0#4
    xerSo := false
    pc := Config.atReset.textBase
    cfg := Config.atReset
    mem := [] }

end Sys2Proof.Machine
end

