-- ==== Sys2Proof/Machine/Ops.lean ====
section
/-! DEFINITION. The named operations over memory, registers and outcomes that every meaning is written with
(00_scope.md R12; 20_memory.md; 60_exceptions.md R150 to R156). -/

namespace Sys2Proof.Machine

/-! ## Memory: a list of (address, byte) cells, addresses strictly rising, no listed byte equal to the unlisted one -/

/-- What an unlisted address reads as: DESIGN CHOICE, log 5. -/
def Memory.unlisted : Byte := 0#8

/-- The byte at address `a`. -/
def Memory.read : List Host.Cell → Nat → Byte
  | [], _ => Memory.unlisted
  | (b, v) :: t, a => if a = b then v else Memory.read t a

/-- The cell `(a, v)` in front of `t`, or `t` alone when `v` is what an unlisted address reads as. -/
def Memory.consCell (a : Nat) (v : Byte) (t : List Host.Cell) : List Host.Cell :=
  if v = Memory.unlisted then t else (a, v) :: t

/-- The memory with `v` at address `a`. -/
def Memory.write : List Host.Cell → Nat → Byte → List Host.Cell
  | [], a, v => Memory.consCell a v []
  | (b, u) :: t, a, v =>
    if a < b then Memory.consCell a v ((b, u) :: t)
    else if a = b then Memory.consCell a v t
    else (b, u) :: Memory.write t a v

/-- The canonical form: addresses strictly rising, no cell equal to what an unlisted address reads as. -/
def Memory.wf : List Host.Cell → Bool
  | [] => true
  | (a, v) :: t => decide (v ≠ Memory.unlisted) && t.all (fun c => decide (a < c.1)) && Memory.wf t

/-- The instruction word stored at address `a` (`MemRead(a, 4)` assembled as 20_memory.md R42 says). -/
def Memory.readWord (e : Endian) (mem : List Host.Cell) (a : Nat) : Insn :=
  wordOfBytes e (Memory.read mem a) (Memory.read mem (a + 1)) (Memory.read mem (a + 2)) (Memory.read mem (a + 3))

/-- The memory with the four bytes of `insn` at `a` to `a + 3`: how a launch places a word of the text (20_memory.md R40). -/
def Memory.writeWord (e : Endian) (mem : List Host.Cell) (a : Nat) (insn : Insn) : List Host.Cell :=
  Memory.write (Memory.write (Memory.write (Memory.write mem a (byteOfWord e insn 0)) (a + 1) (byteOfWord e insn 1))
    (a + 2) (byteOfWord e insn 2)) (a + 3) (byteOfWord e insn 3)

/-! ## Registers (00_scope.md R12) -/

/-- `GPR[n]` -/
def State.readGpr (s : State) (n : GprNum) : Word := s.gpr[n.toNat]'n.isLt

/-- `GPR[n] <- v`; no general register is hardwired (10_state.md R20) -/
def State.writeGpr (s : State) (n : GprNum) (v : Word) : State := { s with gpr := s.gpr.set n.toNat v n.isLt }

/-- `CRF[n]` -/
def State.readCrf (s : State) (n : CrfNum) : CrField := s.crf[n.toNat]'n.isLt

/-- `CRF[n] <- v` -/
def State.writeCrf (s : State) (n : CrfNum) (v : CrField) : State := { s with crf := s.crf.set n.toNat v n.isLt }

/-- `pc <- (pc + 4) mod 2^64` (10_state.md R28) -/
def State.advance (s : State) : State := { s with pc := s.pc + 4#64 }

/-- The 32-bit Condition Register, `CRF[0]` leftmost: field `n` is `CR[32+4n : 35+4n]` (10_state.md R24). No instruction
reads it; it is a view of the eight fields. -/
def State.cr (s : State) : BitVec 32 :=
  ((s.readCrf 0#3).setWidth 32 <<< 28) ||| ((s.readCrf 1#3).setWidth 32 <<< 24) ||| ((s.readCrf 2#3).setWidth 32 <<< 20)
    ||| ((s.readCrf 3#3).setWidth 32 <<< 16) ||| ((s.readCrf 4#3).setWidth 32 <<< 12) ||| ((s.readCrf 5#3).setWidth 32 <<< 8)
    ||| ((s.readCrf 6#3).setWidth 32 <<< 4) ||| (s.readCrf 7#3).setWidth 32

/-! ## Outcomes -/

/-- `raise <Fault>(info)`: the one way a fault is taken. The step ends with no state change, no handler is entered and
nothing is saved (60_exceptions.md R150, R158); there is no return from it (R158). -/
def raise {α : Type} (f : Fault) : Host.Outcome α Fault Refusal := .fault f

/-- Goes on with the answer of `x` when there is one, and stops as `x` stops otherwise. -/
def andThen {α β : Type} (x : Host.Outcome α Fault Refusal) (k : α → Host.Outcome β Fault Refusal) :
    Host.Outcome β Fault Refusal :=
  match x with
  | .next a => k a
  | .fault f => .fault f
  | .refused r => .refused r

/-! ## The program text and the fetch -/

/-- The first byte address past the text, `TEXT_BASE + 4*TEXT_LEN` (20_memory.md R40). -/
def State.textEnd (s : State) : Nat := s.cfg.textBase.toNat + 4 * s.cfg.textLen

/-- Address `a` lies in the text (20_memory.md R40). -/
def State.inText (s : State) (a : Nat) : Bool := decide (s.cfg.textBase.toNat ≤ a) && decide (a < s.textEnd)

/-- The byte at address `a`; nothing is addressable outside the text (20_memory.md R40). -/
def State.readByte (s : State) (a : Nat) : Option Byte :=
  if s.inText a then some (Memory.read s.mem a) else none

/-- The word a step fetches, tested in the order of 60_exceptions.md R156: end of run (R173), alignment, range (R153). -/
def fetchWord (s : State) : Host.Outcome Insn Fault Refusal :=
  if s.pc.toNat = s.textEnd then .refused .endOfRun
  else if s.pc.toNat % 4 ≠ 0 then raise (.fetchFault s.pc)
  else if s.inText s.pc.toNat then .next (Memory.readWord s.cfg.insnEndian s.mem s.pc.toNat)
  else raise (.fetchFault s.pc)

/-- The instruction a step runs: the fetched word decoded, or `IllegalInstruction` (60_exceptions.md R151). -/
def fetchInstr (s : State) : Host.Outcome Instr Fault Refusal :=
  andThen (fetchWord s) fun insn =>
    match decodeWord s.cfg.xoHi insn with
    | .ok i => .next i
    | .error _ => raise (.illegalInstruction s.pc insn)

end Sys2Proof.Machine
end

