-- ==== Sys2Proof/Machine/Operands.lean ====
section
/-! DEFINITION. The operand forms (00_scope.md R13, 30_encoding.md R60, R66). -/

namespace Sys2Proof.Machine

/-- `(RA|0)`: the constant zero when the field is 0, else `GPR[RA]` (00_scope.md R13). -/
def State.readRaOrZero (s : State) (ra : GprNum) : Word := if ra = 0#5 then 0#64 else s.readGpr ra

/-- `reg[63]`, the least significant bit of a register value (41_mtcrweird.md R90). -/
def lsbOf (v : Word) : Bool := bitAt v 63

/-- `BT[2:4]`, the CR field number of a bit target (30_encoding.md R60). -/
def btField (bt : BitVec 5) : CrfNum := bitsFrom bt 2 3

/-- `BT[0:1]`, the bit number within the field, MSB0 (30_encoding.md R60, 43_crweirder.md R111). -/
def btBit (bt : BitVec 5) : BitVec 2 := bitsFrom bt 0 2

/-- One bit in all four positions of a CR field (41_mtcrweird.md R90). -/
def replicate4 (b : Bool) : CrField := if b then 0b1111#4 else 0b0000#4

/-- `zext_64` of one bit (00_scope.md R12, 40_crrweird.md R81). -/
def zext64 (b : Bool) : Word := if b then 1#64 else 0#64

end Sys2Proof.Machine
end

