-- ==== Sys2Proof/Machine/Flags.lean ====
section
/-! DEFINITION. The computations on CR fields: matching, reducing, recording, merging (00_scope.md R15,
40_crrweird.md R82, 41_mtcrweird.md R90, 43_crweirder.md R110). -/

namespace Sys2Proof.Machine

/-- `b0 || b1 || b2 || b3`: concatenation, `b0` most significant (00_scope.md R10). -/
def concat4 (b0 b1 b2 b3 : Bool) : CrField :=
  BitVec.ofBool b0 ++ BitVec.ofBool b1 ++ BitVec.ofBool b2 ++ BitVec.ofBool b3

/-- `n_i = mask[i] & (mode[i] == c[i])` (00_scope.md R15). -/
def matchBit (mask mode c : CrField) (i : Nat) : Bool := bitAt mask i && (bitAt mode i == bitAt c i)

/-- `match4(mask, mode, c)` (00_scope.md R15). -/
def match4 (mask mode c : CrField) : CrField :=
  concat4 (matchBit mask mode c 0) (matchBit mask mode c 1) (matchBit mask mode c 2) (matchBit mask mode c 3)

/-- `reduce1(M, n)`: OR of the four bits when `M` is 1, AND when `M` is 0 (00_scope.md R15). -/
def reduce1 (m : Bool) (n : CrField) : Bool :=
  if m then bitAt n 0 || bitAt n 1 || bitAt n 2 || bitAt n 3 else bitAt n 0 && bitAt n 1 && bitAt n 2 && bitAt n 3

/-- `analyse(v)`: `LT || GT || EQ || SO`, `v` a two's-complement number compared with zero (40_crrweird.md R82). -/
def analyse (v : Word) (so : Bool) : CrField :=
  concat4 (decide (v.toInt < 0)) (decide (0 < v.toInt)) (decide (v = 0#64)) so

/-- The new value of a destination CR field: read-modify-write under `mask` when `M` is 1, overwrite when `M` is 0
(41_mtcrweird.md R91, 42_crweird.md R101). -/
def mergeField (m : Bool) (mask n old : CrField) : CrField := if m then n ||| (old &&& ~~~mask) else n

/-- `old` with MSB0 bit `bit` replaced by `result`, as the arithmetic of 43_crweirder.md R110 has it. -/
def setCrBit (old : CrField) (bit : BitVec 2) (result : Bool) : CrField :=
  let w := 8#4 >>> bit.toNat
  (old &&& ~~~w) ||| (if result then w else 0#4)

end Sys2Proof.Machine
end

