-- ==== Sys2Proof/Machine/Crrweird.lean ====
section
/-! DEFINITION. `crrweird`: a CR field reduced to one bit of a general register (40_crrweird.md). -/

namespace Sys2Proof.Machine

/-- `crrweird RT, BFA, M, mask.mode` and its record form (40_crrweird.md R80 to R83): the source field is read before
`CRF[0]` is written (00_scope.md R12). -/
def execCrrweird (rt : GprNum) (bfa : CrfNum) (m : Bool) (mask mode : CrField) (rc : Bool) (s : State) :
    Host.Outcome State Fault Refusal :=
  let v := zext64 (reduce1 m (match4 mask mode (s.readCrf bfa)))
  let t := s.writeGpr rt v
  .next (if rc then t.writeCrf 0#3 (analyse v s.xerSo) else t).advance

end Sys2Proof.Machine
end

