-- ==== Sys2Proof/Machine/Crweird.lean ====
section
/-! DEFINITION. `crweird`: CR field to CR field (42_crweird.md). -/

namespace Sys2Proof.Machine

/-- `crweird BF, BFA, M, mask.mode` (42_crweird.md R100 to R102); with `BF = BFA` both reads see the old field. -/
def execCrweird (bf bfa : CrfNum) (m : Bool) (mask mode : CrField) (s : State) : Host.Outcome State Fault Refusal :=
  let n := match4 mask mode (s.readCrf bfa)
  .next (s.writeCrf bf (mergeField m mask n (s.readCrf bf))).advance

end Sys2Proof.Machine
end

