-- ==== Sys2Proof/Machine/Crweirder.lean ====
section
/-! DEFINITION. `crweirder`: a CR field reduced to one bit of a CR field (43_crweirder.md). -/

namespace Sys2Proof.Machine

/-- `crweirder BT, BFA, M, mask.mode` (43_crweirder.md R110 to R112). -/
def execCrweirder (bt : BitVec 5) (bfa : CrfNum) (m : Bool) (mask mode : CrField) (s : State) :
    Host.Outcome State Fault Refusal :=
  let result := reduce1 m (match4 mask mode (s.readCrf bfa))
  let bf := btField bt
  .next (s.writeCrf bf (setCrBit (s.readCrf bf) (btBit bt) result)).advance

end Sys2Proof.Machine
end

