-- ==== Sys2Proof/Machine/Mtcrweird.lean ====
section
/-! DEFINITION. `mtcrweird`: one bit of a general register spread over a CR field (41_mtcrweird.md). -/

namespace Sys2Proof.Machine

/-- The effect of `mtcrweird` on the state (41_mtcrweird.md R90). -/
def moveToCr (bf : CrfNum) (ra : GprNum) (m : Bool) (mask mode : CrField) (s : State) : State :=
  let n := match4 mask mode (replicate4 (lsbOf (s.readRaOrZero ra)))
  (s.writeCrf bf (mergeField m mask n (s.readCrf bf))).advance

/-- `mtcrweird BF, RA, M, mask.mode` (41_mtcrweird.md R90 to R92). -/
def execMtcrweird (bf : CrfNum) (ra : GprNum) (m : Bool) (mask mode : CrField) (s : State) :
    Host.Outcome State Fault Refusal :=
  .next (moveToCr bf ra m mask mode s)

end Sys2Proof.Machine
end

