-- ==== Sys2Proof/Machine/PseudoOps.lean ====
section
/-! DEFINITION. The pseudo-ops: each is the `mtcrweird` it expands to, with `RA = 0` (44_pseudo_ops.md). -/

namespace Sys2Proof.Machine

/-- `mtcri BF, mode` = `mtcrweird BF, r0, 0, 0b1111.~mode` (44_pseudo_ops.md R120). -/
def execMtcri (bf : CrfNum) (mode : CrField) (s : State) : Host.Outcome State Fault Refusal :=
  .next (moveToCr bf 0#5 false 0b1111#4 (~~~mode) s)

/-- `mtcrset BF, mask` = `mtcrweird BF, r0, 1, mask.0b0000` (44_pseudo_ops.md R121). -/
def execMtcrset (bf : CrfNum) (mask : CrField) (s : State) : Host.Outcome State Fault Refusal :=
  .next (moveToCr bf 0#5 true mask 0b0000#4 s)

/-- `mtcrclr BF, mask` = `mtcrweird BF, r0, 1, mask.0b1111` (44_pseudo_ops.md R122). -/
def execMtcrclr (bf : CrfNum) (mask : CrField) (s : State) : Host.Outcome State Fault Refusal :=
  .next (moveToCr bf 0#5 true mask 0b1111#4 s)

end Sys2Proof.Machine
end

