-- ==== Sys2Proof/Machine/Dispatch.lean ====
section
/-! DEFINITION. The meaning of every instruction, one arm per constructor of `Instr`. -/

namespace Sys2Proof.Machine

def exec (i : Instr) (s : State) : Host.Outcome State Fault Refusal :=
  match i with
  | .crrweird rt bfa m mask mode rc => Sys2Proof.Machine.execCrrweird rt bfa m mask mode rc s
  | .mtcrweird bf ra m mask mode => Sys2Proof.Machine.execMtcrweird bf ra m mask mode s
  | .crweirder bt bfa m mask mode => Sys2Proof.Machine.execCrweirder bt bfa m mask mode s
  | .crweird bf bfa m mask mode => Sys2Proof.Machine.execCrweird bf bfa m mask mode s
  | .mtcri bf mode => Sys2Proof.Machine.execMtcri bf mode s
  | .mtcrset bf mask => Sys2Proof.Machine.execMtcrset bf mask s
  | .mtcrclr bf mask => Sys2Proof.Machine.execMtcrclr bf mask s

end Sys2Proof.Machine
end

