-- ==== Sys2Proof/Machine/Launch.lean ====
section
/-! DEFINITION. What the host does before a run: place the program text and the launch values
(20_memory.md R40, 70_reset_and_hazards.md R170, R172). No instruction does any of this. -/

namespace Sys2Proof.Machine

/-- The words of a text at `a`, `a + 4`, … (20_memory.md R40). -/
def Memory.writeText (e : Endian) (mem : List Host.Cell) : Nat → List Insn → List Host.Cell
  | _, [] => mem
  | a, w :: ws => Memory.writeText e (Memory.writeWord e mem a w) (a + 4) ws

/-- The launch state of 70_reset_and_hazards.md R170: the host's `XO_HI`, `INSN_ENDIAN`, `TEXT_BASE`, program text and
register values, and `pc = TEXT_BASE`. -/
def launch (xoHi : BitVec 5) (e : Endian) (textBase : Word) (text : List Insn) (gpr : Vector Word 32)
    (crf : Vector CrField 8) (xerSo : Bool) : State :=
  { gpr := gpr
    crf := crf
    xerSo := xerSo
    pc := textBase
    cfg := { xoHi := xoHi, insnEndian := e, textBase := textBase, textLen := text.length }
    mem := Memory.writeText e [] textBase.toNat text }

/-- The state with one word placed at `pc`. When `pc` is an aligned address of the text, only those four bytes change;
otherwise no word can be fetched there, and the text becomes that one word at `pc`, `pc` first brought down to a multiple of 4
(log 23). -/
def State.placeWord (s : State) (insn : Insn) : State :=
  if s.inText s.pc.toNat && decide (s.pc.toNat % 4 = 0) then
    { s with mem := Memory.writeWord s.cfg.insnEndian s.mem s.pc.toNat insn }
  else
    let a := s.pc &&& ~~~3#64
    { s with
      pc := a
      cfg := { s.cfg with textBase := a, textLen := 1 }
      mem := Memory.writeWord s.cfg.insnEndian [] a.toNat insn }

end Sys2Proof.Machine
end

