-- ==== Sys2Proof/Machine/Step.lean ====
section
/-! DEFINITION. One step of the machine: fetch, decode, execute (60_exceptions.md R150, R156). -/

namespace Sys2Proof.Machine

/-- One step: the next state, the end of the run or a fault (60_exceptions.md R150). -/
def step (s : State) : Host.Outcome State Fault Refusal :=
  andThen (fetchInstr s) fun i => exec i s

/-- The state with the word `w` of `nbits` bits placed where the next step fetches (log 23). -/
def State.withFetchWord (s : State) (nbits w : Nat) : State :=
  s.placeWord (BitVec.ofNat 32 (w % 2 ^ nbits))

end Sys2Proof.Machine
end

