-- ==== Sys2Proof/Machine/Assembler.lean ====
section
/-! DEFINITION. What an assembler makes of a line: which operand fills which field (30_encoding.md R71 to R74,
44_pseudo_ops.md). Operand order in a line is not field order in the word. -/

namespace Sys2Proof.Machine

/-- The number of a general register operand. -/
def gprOperand? : Operand → Option GprNum
  | .reg n => if n < 32 then some (BitVec.ofNat 5 n) else none
  | _ => none

/-- The number of an `RA` operand; the bare 0 and `r0` both mean field value 0 (30_encoding.md R74). -/
def raOperand? : Operand → Option GprNum
  | .num n => if n = 0 then some 0#5 else none
  | o => gprOperand? o

/-- The number of a CR field operand. -/
def crfOperand? : Operand → Option CrfNum
  | .crf n => if n < 8 then some (BitVec.ofNat 3 n) else none
  | .num n => if n < 8 then some (BitVec.ofNat 3 n) else none
  | _ => none

/-- The value of a `BT` operand. -/
def btOperand? : Operand → Option (BitVec 5)
  | .num n => if n < 32 then some (BitVec.ofNat 5 n) else none
  | _ => none

/-- The value of an `M` operand. -/
def mOperand? : Operand → Option Bool
  | .num n => if n = 0 then some false else if n = 1 then some true else none
  | _ => none

/-- The two halves of a `mask.mode` operand. -/
def maskModeOperand? : Operand → Option (CrField × CrField)
  | .pair k d => if k < 16 ∧ d < 16 then some (BitVec.ofNat 4 k, BitVec.ofNat 4 d) else none
  | _ => none

/-- The value of a pseudo-op's 4-bit operand. -/
def nibbleOperand? : Operand → Option CrField
  | .num n => if n < 16 then some (BitVec.ofNat 4 n) else none
  | _ => none

/-- The instruction a line names, `none` when an operand is missing, of another kind or out of range (30_encoding.md R71, R73). -/
def assemble (l : AsmLine) : Option Instr :=
  match l.mnemonic, l.operands with
  | .crrweird, [rt, bfa, m, mm] => do
    let (k, d) ← maskModeOperand? mm
    return .crrweird (← gprOperand? rt) (← crfOperand? bfa) (← mOperand? m) k d false
  | .crrweirdDot, [rt, bfa, m, mm] => do
    let (k, d) ← maskModeOperand? mm
    return .crrweird (← gprOperand? rt) (← crfOperand? bfa) (← mOperand? m) k d true
  | .mtcrweird, [bf, ra, m, mm] => do
    let (k, d) ← maskModeOperand? mm
    return .mtcrweird (← crfOperand? bf) (← raOperand? ra) (← mOperand? m) k d
  | .crweird, [bf, bfa, m, mm] => do
    let (k, d) ← maskModeOperand? mm
    return .crweird (← crfOperand? bf) (← crfOperand? bfa) (← mOperand? m) k d
  | .crweirder, [bt, bfa, m, mm] => do
    let (k, d) ← maskModeOperand? mm
    return .crweirder (← btOperand? bt) (← crfOperand? bfa) (← mOperand? m) k d
  | .mtcri, [bf, d] => do return .mtcri (← crfOperand? bf) (← nibbleOperand? d)
  | .mtcrset, [bf, k] => do return .mtcrset (← crfOperand? bf) (← nibbleOperand? k)
  | .mtcrclr, [bf, k] => do return .mtcrclr (← crfOperand? bf) (← nibbleOperand? k)
  | _, _ => none

end Sys2Proof.Machine
end

