-- ==== Sys2Proof/Machine/Vectorised.lean ====
section
/-! DEFINITION. The vectorised (SVP64-prefixed) forms as far as 45_vectorised.md describes them. They have no encoding
(30_encoding.md R70) and no step reaches them (R130, decision D26): each is an operation over register files of any size and an
abstract SVP64 context. Every case the spec does not describe is refused by name (R130; 93 U9, U10, U13, U14; log 17). -/

namespace Sys2Proof.Machine

/-- The register files a vectorised form works on: as many general registers and CR fields as the lists are long; the
length of `crf` is the parameter `NCRF` (10_state.md R29, decision D27). -/
structure VecFiles where
  gpr : List Word
  crf : List CrField
deriving DecidableEq, Repr

/-- The files are no smaller than the scalar machine's: `NCRF >= 8`, and `NGPR` = 32 (00_scope.md R7, decisions D9, D27).
`execSv` refuses smaller ones. -/
def VecFiles.legal (f : VecFiles) : Bool := decide (8 ≤ f.crf.length) && decide (32 ≤ f.gpr.length)

/-- The files of the scalar machine: 32 general registers and 8 CR fields. -/
def State.files (s : State) : VecFiles := { gpr := s.gpr.toList, crf := s.crf.toList }

/-- The element width of an integer operand, "8/16/32/default" (45_vectorised.md R134). -/
inductive IntElwidth where
  | default
  | w8
  | w16
  | w32
deriving DecidableEq, Repr

/-- A predicate mask: an integer register or a CR-vector, inverted or not (10_state.md R29). No source says how the fields of a
CR-vector become mask bits (91_not_in_source.md N22), so those bits are themselves the input (log 26). -/
inductive SvMask where
  /-- `rN`, or `~rN` when inverted -/
  | gpr (n : Nat) (inverted : Bool)
  /-- a CR-vector whose bit for element `i` is LSB0 bit `i` of `bits` -/
  | crVector (bits : Word) (inverted : Bool)
deriving DecidableEq, Repr

/-- The SVP64 modes the source names; it defines only the plain loop (45_vectorised.md R138, 93 U13). -/
inductive SvMode where
  | normal
  | dataDependent
  | predicateResult
deriving DecidableEq, Repr

/-- The SVP64 context of one vectorised instruction but for what each operand carries (10_state.md R29): the vector length, the
destination and the source predicate (`none` where there is none), the flag `/dz`, and the mode. -/
structure SvContext where
  vl : Nat
  dm : Option SvMask
  sm : Option SvMask
  zeroing : Bool
  svMode : SvMode
deriving DecidableEq, Repr

/-- `sv.crrweird RT, BB, M, mask.mode` with its SVP64 context, a marker and an element width for each register operand
(45_vectorised.md R131, 10_state.md R29). -/
structure SvCrrweird extends SvContext where
  rt : Nat
  rtIsVec : Bool
  rtElwidth : IntElwidth
  bb : Nat
  bbIsVec : Bool
  bbElwidth : BitVec 2
  m : Bool
  mask : CrField
  mode : CrField
  rc : Bool
deriving DecidableEq, Repr

/-- `sv.mtcrweird BF, RA, M, mask.mode` with its SVP64 context, a marker and an element width for each register operand
(45_vectorised.md R135, 10_state.md R29). -/
structure SvMtcrweird extends SvContext where
  bf : Nat
  bfIsVec : Bool
  bfElwidth : BitVec 2
  ra : Nat
  raIsVec : Bool
  raElwidth : IntElwidth
  m : Bool
  mask : CrField
  mode : CrField
deriving DecidableEq, Repr

/-- The prefixed forms the source names; it describes nothing of the last two (45_vectorised.md R138). -/
inductive SvInstr where
  | crrweird (a : SvCrrweird)
  | mtcrweird (a : SvMtcrweird)
  | crweird
  | crweirder
deriving DecidableEq, Repr

/-- Results packed into one integer element: 1, 2, 4 or 8 for `BB.elwidth` 00, 01, 10, 11 (45_vectorised.md R132). -/
def packSize (e : BitVec 2) : Nat := 2 ^ e.toNat

/-- The low `p` bits of a register. -/
def lowBits (p : Nat) : Word := (BitVec.allOnes 64) >>> (64 - p)

/-- `v` with LSB0 bit `j`, the source's `[63-j]`, replaced by `b`. -/
def setLsb0 (v : Word) (j : Nat) (b : Bool) : Word := (v &&& ~~~(1#64 <<< j)) ||| (zext64 b <<< j)

/-- The result bit of element `i` (45_vectorised.md R131): CR field `BB + i` of a vector, `BB` of a scalar. -/
def svResult (a : SvCrrweird) (f : VecFiles) (i : Nat) : Bool :=
  reduce1 a.m (match4 a.mask a.mode (f.crf.getD (if a.bbIsVec then a.bb + i else a.bb) 0#4))

/-- The write of element `i` to the general registers, as the body of the loop of 45_vectorised.md R131 has it. -/
def svWrite (a : SvCrrweird) (gpr : List Word) (i : Nat) (result : Bool) : List Word :=
  if a.rtIsVec then
    let p := packSize a.bbElwidth
    gpr.set (a.rt + i / p) (setLsb0 (gpr.getD (a.rt + i / p) 0#64 &&& lowBits p) (i % p) result)
  else gpr.set a.rt (setLsb0 (gpr.getD a.rt 0#64) i result)

/-- The general registers after the first `n` elements of the loop (45_vectorised.md R131). -/
def svLoop (a : SvCrrweird) (f : VecFiles) : Nat → List Word
  | 0 => f.gpr
  | n + 1 => svWrite a (svLoop a f n) n (svResult a f n)

/-- The one register that can keep bits the loop never writes. -/
def svOpenReg (a : SvCrrweird) : Nat := if a.rtIsVec then a.rt + a.vl / packSize a.bbElwidth else a.rt

/-- Its bits the loop never writes, which the spec leaves unspecified: the pack positions past `VL` of a vector
destination (45_vectorised.md R132), the bits from LSB0 bit `VL` up of a scalar one (R133, decision D28). -/
def svOpenBits (a : SvCrrweird) : Word :=
  if a.rtIsVec then
    let p := packSize a.bbElwidth
    if a.vl % p = 0 then 0#64 else lowBits p &&& (BitVec.allOnes 64 <<< (a.vl % p))
  else BitVec.allOnes 64 <<< a.vl

/-- A register or field number that some element of `sv.crrweird` uses lies outside its file (93 U10). With `VL = 0` none is
used. -/
def SvCrrweird.outside (a : SvCrrweird) (f : VecFiles) : Bool :=
  decide (0 < a.vl) &&
    (decide (f.crf.length ≤ a.bb + (if a.bbIsVec then a.vl - 1 else 0)) ||
     decide (f.gpr.length ≤ a.rt + (if a.rtIsVec then (a.vl - 1) / packSize a.bbElwidth else 0)))

/-- What 45_vectorised.md R131 describes of `sv.crrweird` beside the integer element width: its loop has no predicate test and no
`Rc` handling, so no mask, no zeroing, no mode but the plain loop and no record bit. The rest is refused (93 U13; log 17). -/
def SvCrrweird.described (a : SvCrrweird) : Bool :=
  !a.rc && a.dm.isNone && a.sm.isNone && !a.zeroing && decide (a.svMode = .normal)

/-- `sv.crrweird`: the loop of 45_vectorised.md R131, then the unwritten bits taken from `draw`, which stands for any
value (log 18). -/
def execSvCrrweird (draw : Word) (a : SvCrrweird) (f : VecFiles) : Host.Outcome VecFiles Fault Refusal :=
  if !a.described then .refused (.svNotDescribed "sv.crrweird")
  else if !f.legal then .refused .svFilesTooSmall
  else if a.rtElwidth ≠ .default then .refused .svDestElwidth
  else if !a.rtIsVec && decide (64 < a.vl) then .refused .svVectorTooLong
  else if a.outside f then .refused .svIndexOutsideFile
  else
    let g := svLoop a f a.vl
    let o := svOpenBits a
    .next { f with gpr := g.set (svOpenReg a) ((g.getD (svOpenReg a) 0#64 &&& ~~~o) ||| (draw &&& o)) }

/-- What 45_vectorised.md R135 describes of `sv.mtcrweird`: a vector `BF`, a scalar `RA` of default element width, `M = 0`,
a destination predicate with zeroing, no source predicate, the plain loop. Everything else is refused (93 U13, U14). Whether an
element width of `BF` other than `0b00` matters beside a scalar `RA` is left open; the model takes it for the unpacking R135 leaves
undescribed and refuses it (DESIGN CHOICE, safe; log 27). -/
def SvMtcrweird.described (a : SvMtcrweird) : Bool :=
  a.bfIsVec && decide (a.bfElwidth = 0b00#2) && !a.raIsVec && decide (a.raElwidth = .default) && !a.m && a.sm.isNone &&
    a.zeroing && decide (a.svMode = .normal)

/-- The bit of a predicate mask for element `i`: LSB0 bit `i` (90_conflicts.md C10), complemented when inverted (log 26). -/
def SvMask.bit (k : SvMask) (f : VecFiles) (i : Nat) : Bool :=
  match k with
  | .gpr n inverted => (f.gpr.getD n 0#64).getLsbD i ^^ inverted
  | .crVector bits inverted => bits.getLsbD i ^^ inverted

/-- The mask is a general register outside the file. -/
def SvMask.outside (k : SvMask) (f : VecFiles) : Bool :=
  match k with
  | .gpr n _ => decide (f.gpr.length ≤ n)
  | .crVector _ _ => false

/-- A register or field number that some element of `sv.mtcrweird` uses lies outside its file (93 U10). -/
def SvMtcrweird.outside (a : SvMtcrweird) (dm : SvMask) (f : VecFiles) : Bool :=
  decide (0 < a.vl) &&
    (decide (f.crf.length ≤ a.bf + (a.vl - 1)) || decide (f.gpr.length ≤ a.ra) || dm.outside f)

/-- The CR field of element `i`: the scalar result on LSB0 bit `i` of `(RA|0)` where the predicate bit is 1, zero where it
is 0 (45_vectorised.md R135). -/
def svField (a : SvMtcrweird) (dm : SvMask) (f : VecFiles) (i : Nat) : CrField :=
  let src := if a.ra = 0 then 0#64 else f.gpr.getD a.ra 0#64
  if dm.bit f i then match4 a.mask a.mode (replicate4 (src.getLsbD i)) else 0b0000#4

/-- The CR fields after the first `n` elements. -/
def svFields (a : SvMtcrweird) (dm : SvMask) (f : VecFiles) : Nat → List CrField
  | 0 => f.crf
  | n + 1 => (svFields a dm f n).set (a.bf + n) (svField a dm f n)

/-- `sv.mtcrweird` (45_vectorised.md R135). -/
def execSvMtcrweird (a : SvMtcrweird) (f : VecFiles) : Host.Outcome VecFiles Fault Refusal :=
  match a.described, a.dm with
  | true, some dm =>
    if !f.legal then .refused .svFilesTooSmall
    else if 64 < a.vl then .refused .svVectorTooLong
    else if a.outside dm f then .refused .svIndexOutsideFile
    else .next { f with crf := svFields a dm f a.vl }
  | _, _ => .refused (.svNotDescribed "sv.mtcrweird")

/-- A prefixed form on the register files. -/
def execSv (draw : Word) (i : SvInstr) (f : VecFiles) : Host.Outcome VecFiles Fault Refusal :=
  match i with
  | .crrweird a => execSvCrrweird draw a f
  | .mtcrweird a => execSvMtcrweird a f
  | .crweird => .refused (.svNotDescribed "sv.crweird")
  | .crweirder => .refused (.svNotDescribed "sv.crweirder")

end Sys2Proof.Machine
end

