-- ==== Sys2Proof/Safety.lean ====
section
/-! DEFINITION. The terms claims use: a legal launch, a well-formed state, a legal text, read and write sets, a run. -/

namespace Sys2Proof.Machine

/-- The launch parameters obey 20_memory.md R40: `TEXT_BASE` a multiple of 4, `TEXT_BASE + 4*TEXT_LEN < 2^64`. -/
abbrev LegalConfig (c : Config) : Prop :=
  c.textBase.toNat % 4 = 0 ∧ c.textBase.toNat + 4 * c.textLen < 2 ^ 64

/-- A state a run can be in: legal parameters, memory in canonical form and listing text bytes only, `pc` a multiple of 4
inside the text or at its end (20_memory.md R40, R43; 60_exceptions.md R153). -/
structure State.Wf (s : State) : Prop where
  legal : LegalConfig s.cfg
  memWf : Memory.wf s.mem = true
  memInText : ∀ c ∈ s.mem, s.inText c.1 = true
  pcAligned : s.pc.toNat % 4 = 0
  pcLow : s.cfg.textBase.toNat ≤ s.pc.toNat
  pcHigh : s.pc.toNat ≤ s.textEnd

/-- The words of the text from `pc` to its end (70_reset_and_hazards.md R173). -/
def State.wordsLeft (s : State) : Nat := (s.textEnd - s.pc.toNat) / 4

/-- Word `k` of the text from `pc` on. -/
def State.wordAhead (s : State) (k : Nat) : Insn := Memory.readWord s.cfg.insnEndian s.mem (s.pc.toNat + 4 * k)

/-- The word is one of the four instructions (30_encoding.md R67). -/
def legalWord (xoHi : BitVec 5) (insn : Insn) : Bool :=
  match decodeWord xoHi insn with
  | .ok _ => true
  | .error _ => false

/-- Every word of the text from `pc` to its end is legal. -/
def State.LegalAhead (s : State) : Prop := ∀ k, k < s.wordsLeft → legalWord s.cfg.xoHi (s.wordAhead k) = true

/-- The general registers an instruction reads (the table of 70_reset_and_hazards.md R177). -/
def readsGpr : Instr → List GprNum
  | .mtcrweird _ ra _ _ _ => if ra = 0#5 then [] else [ra]
  | _ => []

/-- The CR fields an instruction reads (70_reset_and_hazards.md R177). -/
def readsCrf : Instr → List CrfNum
  | .crrweird _ bfa _ _ _ _ => [bfa]
  | .mtcrweird bf _ m _ _ => if m then [bf] else []
  | .crweirder bt bfa _ _ _ => [bfa, btField bt]
  | .crweird bf bfa m _ _ => if m then [bfa, bf] else [bfa]
  | .mtcri _ _ => []
  | .mtcrset bf _ => [bf]
  | .mtcrclr bf _ => [bf]

/-- The instruction reads `XER_SO` (70_reset_and_hazards.md R177). -/
def readsXerSo : Instr → Bool
  | .crrweird _ _ _ _ _ rc => rc
  | _ => false

/-- The general registers an instruction writes (70_reset_and_hazards.md R177). -/
def writesGpr : Instr → List GprNum
  | .crrweird rt _ _ _ _ _ => [rt]
  | _ => []

/-- The CR fields an instruction writes (70_reset_and_hazards.md R177). -/
def writesCrf : Instr → List CrfNum
  | .crrweird _ _ _ _ _ rc => if rc then [0#3] else []
  | .mtcrweird bf _ _ _ _ => [bf]
  | .crweirder bt _ _ _ _ => [btField bt]
  | .crweird bf _ _ _ _ => [bf]
  | .mtcri bf _ => [bf]
  | .mtcrset bf _ => [bf]
  | .mtcrclr bf _ => [bf]

/-- The two states hold the same in everything the instruction reads. -/
structure AgreeOnReads (i : Instr) (s t : State) : Prop where
  gpr : ∀ n ∈ readsGpr i, s.readGpr n = t.readGpr n
  crf : ∀ f ∈ readsCrf i, s.readCrf f = t.readCrf f
  xerSo : readsXerSo i = true → s.xerSo = t.xerSo

/-- The two states hold the same in everything the instruction writes. -/
structure AgreeOnWrites (i : Instr) (s t : State) : Prop where
  gpr : ∀ n ∈ writesGpr i, s.readGpr n = t.readGpr n
  crf : ∀ f ∈ writesCrf i, s.readCrf f = t.readCrf f

/-- Everything outside the registers is as before, but for the program counter: `XER_SO`, the launch parameters, and every
byte of the text. -/
structure SameBeside (s t : State) : Prop where
  xerSo : t.xerSo = s.xerSo
  cfg : t.cfg = s.cfg
  bytes : ∀ a, t.readByte a = s.readByte a

/-- `t` is the state after exactly `k` steps from `s`, each of which gave a next state. -/
def reaches : Nat → State → State → Prop
  | 0, s, t => s = t
  | k + 1, s, t => ∃ u, step s = .next u ∧ reaches k u t

end Sys2Proof.Machine
end

