-- ==== Sys2Proof/Certificates/Slice0/Obligations.lean ====
section
/-! DEFINITION. The statements for the provers, from the spec's numbered rules, file by file. Most rules of this spec are
marked there as the spec's own decision or derivation; a statement that rests on such a rule is 'derived' in
OBLIGATIONS.json and its docstring names the mark. -/

open Sys2Proof Sys2Proof.Machine

/-! ## Helper functions (00_scope.md R15) -/

/-- 00_scope.md R15: the bits and the closed forms of `match4` and `reduce1`, and the consequence for `M = 0` (the spec
marks the closed forms derived from R10). -/
def Obligations.MatchAndReduceClosedForms : Prop :=
  ∀ (mask mode c n : CrField),
    (∀ i, i < 4 → bitAt (match4 mask mode c) i = (bitAt mask i && (bitAt mode i == bitAt c i))) ∧
    match4 mask mode c = mask &&& ~~~(mode ^^^ c) ∧
    reduce1 true n = decide (n ≠ 0b0000#4) ∧
    reduce1 false n = decide (n = 0b1111#4) ∧
    reduce1 false (match4 mask mode c) = (decide (mask = 0b1111#4) && decide (c = mode))

/-! ## Encoding (30_encoding.md) -/

/-- 30_encoding.md R67, R75, R123, 44_pseudo_ops.md R120 to R122: decoding the word of any instruction gives that
instruction, or the `mtcrweird` a pseudo-op names, for every `XO_HI`. -/
def Obligations.DecodeOfEncodeIsTheCoreInstruction : Prop :=
  ∀ (x : BitVec 5) (i : Instr), decodeWord x (encode x i) = .ok i.expand

/-- 30_encoding.md R67, R75: a word that decodes is the word of the instruction it decodes to, so no two words share a
meaning and the decoder drops no bit. -/
def Obligations.EncodeOfDecodeIsTheWord : Prop :=
  ∀ (x : BitVec 5) (w : Insn) (i : Instr), decodeWord x w = .ok i → encode x i = w

/-- 30_encoding.md R75 (derived there): a word decodes exactly when it fits one of the four match and mask rows, with
`XO_HI << 6` in the match. -/
def Obligations.DecodesExactlyTheFourPatterns : Prop :=
  ∀ (x : BitVec 5) (w : Insn),
    (∃ i, decodeWord x w = .ok i) ↔
      (w &&& 0xFC001FE0#32 = 0x4C000000#32 ||| (x.setWidth 32 <<< 6) ∨
       w &&& 0xFC001FE1#32 = 0x4C000800#32 ||| (x.setWidth 32 <<< 6) ∨
       w &&& 0xFC001FE1#32 = 0x4C001000#32 ||| (x.setWidth 32 <<< 6) ∨
       w &&& 0xFC601FE1#32 = 0x4C001800#32 ||| (x.setWidth 32 <<< 6))

/-- 30_encoding.md R59, R67: the selector `insn[19:20]` says which of the four instructions a legal word is; the decoder
answers with no pseudo-op (44_pseudo_ops.md R123). The assignment of 10 and 11 is the spec's decision D2. -/
def Obligations.SelectorBitsNameTheInstruction : Prop :=
  ∀ (x : BitVec 5) (w : Insn) (i : Instr), decodeWord x w = .ok i →
    ((∃ rt bfa m mask mode rc, i = .crrweird rt bfa m mask mode rc) ↔ w.toNat / 2 ^ 11 % 4 = 0) ∧
    ((∃ bf ra m mask mode, i = .mtcrweird bf ra m mask mode) ↔ w.toNat / 2 ^ 11 % 4 = 1) ∧
    ((∃ bt bfa m mask mode, i = .crweirder bt bfa m mask mode) ↔ w.toNat / 2 ^ 11 % 4 = 2) ∧
    ((∃ bf bfa m mask mode, i = .crweird bf bfa m mask mode) ↔ w.toNat / 2 ^ 11 % 4 = 3) ∧
    i.expand = i

/-- 30_encoding.md R62, R63, R64: where `mask`, `mode` and the CR field operand of slot `S16` stand in a legal word, bit by
bit, that every value of each is legal, and that bit `i` of `mask` and of `mode` meets bit `i` of the field tested. -/
def Obligations.MaskModeAndFieldStandInTheirBits : Prop :=
  (∀ (x : BitVec 5) (w : Insn) (mask mode : CrField) (s16 : CrfNum),
    ((∃ rt m rc, decodeWord x w = .ok (.crrweird rt s16 m mask mode rc)) ∨
     (∃ ra m, decodeWord x w = .ok (.mtcrweird s16 ra m mask mode)) ∨
     (∃ bt m, decodeWord x w = .ok (.crweirder bt s16 m mask mode)) ∨
     (∃ bf m, decodeWord x w = .ok (.crweird bf s16 m mask mode))) →
    (∀ i, i < 4 → bitAt mask i = bitAt w (12 + i) ∧ bitAt mode i = bitAt w (27 + i)) ∧
    s16.toNat = w.toNat / 2 ^ 13 % 8) ∧
  (∀ (x : BitVec 5) (mask mode : CrField) (s16 : CrfNum),
    (∃ w rt m rc, decodeWord x w = .ok (.crrweird rt s16 m mask mode rc)) ∧
    (∃ w ra m, decodeWord x w = .ok (.mtcrweird s16 ra m mask mode)) ∧
    (∃ w bt m, decodeWord x w = .ok (.crweirder bt s16 m mask mode)) ∧
    (∃ w bf m, decodeWord x w = .ok (.crweird bf s16 m mask mode))) ∧
  (∀ (mask mode c : CrField) (i : Nat), i < 4 → bitAt (match4 mask mode c) i = (bitAt mask i && (bitAt mode i == bitAt c i)))

/-- 30_encoding.md R60 (decision D3), R65: where the operand of slot `S6` and `Rc` stand in a legal word, and that every value of
each is legal: `RT` and `RA` at `insn[6:10]`; `BT` there too, its bit number at `insn[6:7]` and its field number at `insn[8:10]`; `BF`
of `crweird` at `insn[6:8]` with `insn[9:10]` zero; `Rc` of `crrweird` at `insn[31]`, which is zero in the other three. -/
def Obligations.SlotS6AndRcStandInTheirBits : Prop :=
  (∀ (x : BitVec 5) (w : Insn) (s16 : CrfNum) (m : Bool) (mask mode : CrField),
    (∀ rt rc, decodeWord x w = .ok (.crrweird rt s16 m mask mode rc) →
      rt.toNat = w.toNat / 2 ^ 21 % 32 ∧ rc = bitAt w 31) ∧
    (∀ ra, decodeWord x w = .ok (.mtcrweird s16 ra m mask mode) → ra.toNat = w.toNat / 2 ^ 21 % 32 ∧ bitAt w 31 = false) ∧
    (∀ bt, decodeWord x w = .ok (.crweirder bt s16 m mask mode) →
      bt.toNat = w.toNat / 2 ^ 21 % 32 ∧ (btBit bt).toNat = w.toNat / 2 ^ 24 % 4 ∧ (btField bt).toNat = w.toNat / 2 ^ 21 % 8 ∧
      bitAt w 31 = false) ∧
    (∀ bf, decodeWord x w = .ok (.crweird bf s16 m mask mode) →
      bf.toNat = w.toNat / 2 ^ 23 % 8 ∧ w.toNat / 2 ^ 21 % 4 = 0 ∧ bitAt w 31 = false)) ∧
  (∀ (x s6 : BitVec 5) (bf : CrfNum) (rc : Bool),
    (∃ w s16 m mask mode, decodeWord x w = .ok (.crrweird s6 s16 m mask mode rc)) ∧
    (∃ w s16 m mask mode, decodeWord x w = .ok (.mtcrweird s16 s6 m mask mode)) ∧
    (∃ w s16 m mask mode, decodeWord x w = .ok (.crweirder s6 s16 m mask mode)) ∧
    (∃ w s16 m mask mode, decodeWord x w = .ok (.crweird bf s16 m mask mode)))

/-- 30_encoding.md R68 (decision D4): a word with a reserved bit set is no instruction: `insn[26]` in all four,
`insn[31]` in the three without `Rc`, `insn[9:10]` in `crweird`. -/
def Obligations.ReservedBitsMakeAWordIllegal : Prop :=
  ∀ (x : BitVec 5) (w : Insn),
    (bitAt w 26 = true ∨ (bitAt w 31 = true ∧ w.toNat / 2 ^ 11 % 4 ≠ 0) ∨
      (w.toNat / 2 ^ 21 % 4 ≠ 0 ∧ w.toNat / 2 ^ 11 % 4 = 3)) →
    ∃ e, decodeWord x w = .error e

/-- 30_encoding.md R57, R58, R69: a word whose primary opcode is not 19, or whose `insn[21:25]` is not `XO_HI`, is no
instruction (the parameter `XO_HI` is decision D1). -/
def Obligations.OtherOpcodesAreIllegal : Prop :=
  ∀ (x : BitVec 5) (w : Insn), (w.toNat / 2 ^ 26 ≠ 19 ∨ w.toNat / 2 ^ 6 % 32 ≠ x.toNat) → ∃ e, decodeWord x w = .error e

/-- 30_encoding.md R55: every instruction is one 32-bit word: a decode takes exactly the first four bytes, and an
encoding has four. -/
def Obligations.EveryInstructionIsFourBytes : Prop :=
  (∀ (cfg : Config) (bs rest : List Byte) (i : Instr), decode cfg bs = .ok (i, rest) → ∃ hd, hd.length = 4 ∧ bs = hd ++ rest) ∧
  (∀ (cfg : Config) (i : Instr), (encodeBytes cfg i).length = 4)

/-- 20_memory.md R42 with 30_encoding.md R67, R75: the bytes of an instruction, in either byte order and with anything
behind them, decode to it (`INSN_ENDIAN` is the parameter of decision D11). -/
def Obligations.DecodeOfEncodedBytes : Prop :=
  ∀ (cfg : Config) (i : Instr) (rest : List Byte), decode cfg (encodeBytes cfg i ++ rest) = .ok (i.expand, rest)

/-- Words of 95_test_vectors.md 3.7 and section 4, for `XO_HI = 0`, decode to what the spec says. -/
def Obligations.SampleWordsDecode : Prop :=
  decodeWord 0 0x4C722005 = .ok (.crrweird 3 1 true 0b0010#4 0b0010#4 true) ∧
  decodeWord 0 0x4CEFA81E = .ok (.mtcrweird 5 7 false 0b1111#4 0b1111#4) ∧
  decodeWord 0 0x4DD29004 = .ok (.crweirder 0b01110 4 true 0b0010#4 0b0010#4) ∧
  decodeWord 0 0x4C967808 = .ok (.crweird 1 3 true 0b0110#4 0b0100#4) ∧
  decodeWord 1 0x4C722044 = .ok (.crrweird 3 1 true 0b0010#4 0b0010#4 false) ∧
  decodeWord 0 0x4CB67808 = .error .reservedBits9to10

/-! ## Steps and stops (60_exceptions.md, 70_reset_and_hazards.md) -/

/-- A step runs the decoded instruction: when `pc` is an aligned address of the text and the four bytes there decode to `i`,
the step is `exec i`, with nothing added around it (60_exceptions.md R156, 20_memory.md R42). -/
def Obligations.StepRunsTheDecodedInstruction : Prop :=
  ∀ (s : State) (i : Instr),
    s.pc.toNat % 4 = 0 → s.inText s.pc.toNat = true →
    decode s.cfg [Memory.read s.mem s.pc.toNat, Memory.read s.mem (s.pc.toNat + 1), Memory.read s.mem (s.pc.toNat + 2),
      Memory.read s.mem (s.pc.toNat + 3)] = .ok (i, []) →
    step s = exec i s

/-- 20_memory.md R42 (decision D11): the fetched word has, for `big`, its bits `8k .. 8k+7` in the byte at `pc + k`, and for
`little` its bits `24-8k .. 31-8k`. -/
def Obligations.FetchAssemblesTheBytesInOrder : Prop :=
  ∀ (s : State) (w : Insn), LegalConfig s.cfg → fetchWord s = .next w → ∀ k, k < 4 →
    (s.cfg.insnEndian = .big → s.readByte (s.pc.toNat + k) = some (bitsFrom w (8 * k) 8)) ∧
    (s.cfg.insnEndian = .little → s.readByte (s.pc.toNat + k) = some (bitsFrom w (24 - 8 * k) 8))

/-- 70_reset_and_hazards.md R173 (decision D21): a step ends the run exactly at the address past the text. -/
def Obligations.RunEndsExactlyPastTheText : Prop :=
  ∀ s : State, step s = .refused .endOfRun ↔ s.pc.toNat = s.cfg.textBase.toNat + 4 * s.cfg.textLen

/-- 60_exceptions.md R153, R156 (decisions D12, D17): a fetch fault is raised exactly when the run has not ended and `pc` is
misaligned or outside `[TEXT_BASE, TEXT_BASE + 4*TEXT_LEN]`, and it records `pc`. -/
def Obligations.FetchFaultsExactly : Prop :=
  ∀ (s : State) (p : Word),
    step s = .fault (.fetchFault p) ↔
      p = s.pc ∧ s.pc.toNat ≠ s.cfg.textBase.toNat + 4 * s.cfg.textLen ∧
      (s.pc.toNat % 4 ≠ 0 ∨ s.pc.toNat < s.cfg.textBase.toNat ∨ s.cfg.textBase.toNat + 4 * s.cfg.textLen < s.pc.toNat)

/-- 60_exceptions.md R151 (decisions D4, D17): an illegal instruction is raised exactly when a word is fetched that decodes
to nothing, and it records `pc` and the word. -/
def Obligations.IllegalInstructionsExactly : Prop :=
  ∀ (s : State) (p : Word) (w : Insn),
    step s = .fault (.illegalInstruction p w) ↔
      p = s.pc ∧ s.pc.toNat % 4 = 0 ∧ s.inText s.pc.toNat = true ∧
      w = Memory.readWord s.cfg.insnEndian s.mem s.pc.toNat ∧ legalWord s.cfg.xoHi w = false

/-- 60_exceptions.md R150, R152: a step has one of three outcomes, the next state, the end of the run or one of the two
faults (decision D17). -/
def Obligations.StepHasThreeOutcomes : Prop :=
  ∀ s : State, (∃ t, step s = .next t) ∨ step s = .refused .endOfRun ∨ step s = .fault (.fetchFault s.pc) ∨
    (∃ w, step s = .fault (.illegalInstruction s.pc w))

/-- 60_exceptions.md R152, 10_state.md R28 (decision D10), R26, R32: every instruction, from every state and with every
operand, completes; it moves `pc` on by 4 modulo 2^64 and leaves `XER_SO`, the launch parameters and the text alone. -/
def Obligations.EveryInstructionCompletesAndAdvances : Prop :=
  ∀ (i : Instr) (s : State), ∃ t, exec i s = .next t ∧ t.pc.toNat = (s.pc.toNat + 4) % 2 ^ 64 ∧ SameBeside s t ∧ t.mem = s.mem

/-- 20_memory.md R41: no instruction reads or writes memory: with any other contents of memory it does the same to the
registers, and it leaves the contents as they are. -/
def Obligations.InstructionsDoNotTouchMemory : Prop :=
  ∀ (i : Instr) (s t : State) (mem : List Host.Cell), exec i s = .next t →
    t.mem = s.mem ∧ exec i { s with mem := mem } = .next { t with mem := mem }

/-! ## crrweird (40_crrweird.md) -/

/-- 40_crrweird.md R80, R81, R83 (decision D5; the closed form is derived there): `crrweird` with `Rc = 0` puts the result bit,
zero-extended, in `GPR[RT]`, `RT = 0` included, and leaves every other register and every CR field alone. -/
def Obligations.CrrweirdWritesTheReducedBit : Prop :=
  ∀ (rt : GprNum) (bfa : CrfNum) (m : Bool) (mask mode : CrField) (s : State),
    ∃ t, exec (.crrweird rt bfa m mask mode false) s = .next t ∧
      t.readGpr rt = (if (if m then mask &&& ~~~(mode ^^^ s.readCrf bfa) ≠ 0#4 else mask = 0b1111#4 ∧ s.readCrf bfa = mode)
        then 1#64 else 0#64) ∧
      (∀ n, n ≠ rt → t.readGpr n = s.readGpr n) ∧ (∀ f, t.readCrf f = s.readCrf f) ∧ SameBeside s t ∧ t.pc = s.pc + 4#64

/-- 40_crrweird.md R82 (decisions D6, D25), R83: the record form writes the same register, and all of `CRF[0]`: GT for a
result of 1, EQ for 0, with `XER_SO` in the last bit. The source field is the old one also when it is `CRF[0]`. -/
def Obligations.CrrweirdRecordsInField0 : Prop :=
  ∀ (rt : GprNum) (bfa : CrfNum) (m : Bool) (mask mode : CrField) (s : State),
    ∃ t, exec (.crrweird rt bfa m mask mode true) s = .next t ∧
      (if (if m then mask &&& ~~~(mode ^^^ s.readCrf bfa) ≠ 0#4 else mask = 0b1111#4 ∧ s.readCrf bfa = mode) then
        t.readGpr rt = 1#64 ∧ t.readCrf 0#3 = (if s.xerSo then 0b0101#4 else 0b0100#4)
       else t.readGpr rt = 0#64 ∧ t.readCrf 0#3 = (if s.xerSo then 0b0011#4 else 0b0010#4)) ∧
      (∀ n, n ≠ rt → t.readGpr n = s.readGpr n) ∧ (∀ f, f ≠ 0#3 → t.readCrf f = s.readCrf f) ∧ SameBeside s t ∧ t.pc = s.pc + 4#64

/-- 40_crrweird.md R83 case (3) (derived there): with `M = 1` and one mask bit `k` set, `crrweird` copies bit `k` of the
field, or its complement when `mode[k] = 0`. -/
def Obligations.CrrweirdTestsOneBit : Prop :=
  ∀ (rt : GprNum) (bfa : CrfNum) (mode : CrField) (k : Nat) (s : State), k < 4 →
    ∃ t, exec (.crrweird rt bfa true (8#4 >>> k) mode false) s = .next t ∧
      t.readGpr rt = (if bitAt (s.readCrf bfa) k = bitAt mode k then 1#64 else 0#64)

/-! ## mtcrweird (41_mtcrweird.md) -/

/-- 41_mtcrweird.md R91: each bit of the new `CRF[BF]`: `(mode[i] == lsb)` where the mask bit is 1; where it is 0, the old
bit when `M = 1` and 0 when `M = 0`. `lsb` is bit 63 of `(RA|0)` (R90). -/
def Obligations.MtcrweirdSetsEachBit : Prop :=
  ∀ (bf : CrfNum) (ra : GprNum) (m : Bool) (mask mode : CrField) (s : State),
    ∃ t, exec (.mtcrweird bf ra m mask mode) s = .next t ∧ ∀ i, i < 4 →
      bitAt (t.readCrf bf) i =
        if bitAt mask i = true then bitAt mode i == (if ra = 0#5 then false else (s.readGpr ra).toNat % 2 == 1)
        else if m then bitAt (s.readCrf bf) i else false

/-- 41_mtcrweird.md R90, R92 (derived there): the new field in closed form. -/
def Obligations.MtcrweirdClosedForm : Prop :=
  ∀ (bf : CrfNum) (ra : GprNum) (m : Bool) (mask mode : CrField) (s : State),
    ∃ t, exec (.mtcrweird bf ra m mask mode) s = .next t ∧
      t.readCrf bf =
        (if ra ≠ 0#5 ∧ (s.readGpr ra).toNat % 2 = 1 then mask &&& mode else mask &&& ~~~mode)
          ||| (if m then s.readCrf bf &&& ~~~mask else 0#4)

/-- 00_scope.md R13: the operand `(RA|0)` is zero when the field is 0, `GPR[RA]` otherwise; so `GPR[0]` cannot be read
through an `RA` field: no value of it changes what `mtcrweird` does; and the assembler spellings `r0` and `0` of an `RA`
operand both mean that zero. -/
def Obligations.RaFieldZeroIsTheConstantZero : Prop :=
  (∀ (s : State) (ra : GprNum), s.readRaOrZero ra = if ra.toNat = 0 then 0#64 else s.readGpr ra) ∧
  (∀ (bf : CrfNum) (ra : GprNum) (m : Bool) (mask mode : CrField) (s t : State) (v : Word),
    exec (.mtcrweird bf ra m mask mode) s = .next t →
    exec (.mtcrweird bf ra m mask mode) (s.writeGpr 0#5 v) = .next (t.writeGpr 0#5 v)) ∧
  (∀ (bf m mm : Operand) (i : Instr),
    (assemble ⟨.mtcrweird, [bf, .reg 0, m, mm]⟩ = some i ↔ assemble ⟨.mtcrweird, [bf, .num 0, m, mm]⟩ = some i) ∧
    (assemble ⟨.mtcrweird, [bf, .num 0, m, mm]⟩ = some i → ∃ f b k d, i = .mtcrweird f 0#5 b k d))

/-- 41_mtcrweird.md R90, 10_state.md R21: only bit 63 of the register matters. -/
def Obligations.MtcrweirdUsesOnlyTheLowBit : Prop :=
  ∀ (bf : CrfNum) (ra : GprNum) (m : Bool) (mask mode : CrField) (s t : State) (v : Word),
    v.toNat % 2 = (s.readGpr ra).toNat % 2 → exec (.mtcrweird bf ra m mask mode) s = .next t →
    exec (.mtcrweird bf ra m mask mode) (s.writeGpr ra v) = .next (t.writeGpr ra v)

/-! ## crweird (42_crweird.md) -/

/-- 42_crweird.md R101: each bit of the new `CRF[BF]`: `(mode[i] == CRF[BFA][i])` where the mask bit is 1; where it is 0, the
old bit when `M = 1` and 0 when `M = 0`. With `BF = BFA` both reads are of the old field. -/
def Obligations.CrweirdSetsEachBit : Prop :=
  ∀ (bf bfa : CrfNum) (m : Bool) (mask mode : CrField) (s : State),
    ∃ t, exec (.crweird bf bfa m mask mode) s = .next t ∧ ∀ i, i < 4 →
      bitAt (t.readCrf bf) i =
        if bitAt mask i = true then bitAt mode i == bitAt (s.readCrf bfa) i
        else if m then bitAt (s.readCrf bf) i else false

/-- 42_crweird.md R102 (derived there): the new field in closed form, and copy and complement with the full mask. -/
def Obligations.CrweirdClosedForm : Prop :=
  ∀ (bf bfa : CrfNum) (m : Bool) (mask mode : CrField) (s : State),
    ∃ t, exec (.crweird bf bfa m mask mode) s = .next t ∧
      t.readCrf bf = (mask &&& ~~~(mode ^^^ s.readCrf bfa)) ||| (if m then s.readCrf bf &&& ~~~mask else 0#4) ∧
      (mask = 0b1111#4 → mode = 0b1111#4 → t.readCrf bf = s.readCrf bfa) ∧
      (mask = 0b1111#4 → mode = 0b0000#4 → t.readCrf bf = ~~~(s.readCrf bfa))

/-! ## crweirder (43_crweirder.md) -/

/-- 43_crweirder.md R110, R111 (decision D24), R112: with `BT = bit * 8 + BF`, bit `bit` of `CRF[BF]`, counted from the most
significant, becomes the result; the other three bits keep their value. With `BF = BFA` the old field is tested. -/
def Obligations.CrweirderSetsOneBit : Prop :=
  ∀ (bt : BitVec 5) (bfa : CrfNum) (m : Bool) (mask mode : CrField) (s : State),
    ∃ t, exec (.crweirder bt bfa m mask mode) s = .next t ∧ ∀ (bf : CrfNum), bf.toNat = bt.toNat % 8 → ∀ i, i < 4 →
      bitAt (t.readCrf bf) i =
        if i = bt.toNat / 8 then
          decide (if m then mask &&& ~~~(mode ^^^ s.readCrf bfa) ≠ 0#4 else mask = 0b1111#4 ∧ s.readCrf bfa = mode)
        else bitAt (s.readCrf bf) i

/-- 30_encoding.md R61: what `M` selects in each instruction: OR or AND of the four match bits in `crrweird` (both forms) and
`crweirder`; in `mtcrweird` and `crweird`, whether the bits outside `mask` keep their value or become 0; and `M` is `insn[11]`. -/
def Obligations.MSelectsReductionOrUpdate : Prop :=
  (∀ (rt : GprNum) (bfa : CrfNum) (m : Bool) (mask mode : CrField) (rc : Bool) (s : State) (n : CrField),
    n = match4 mask mode (s.readCrf bfa) →
    ∃ t, exec (.crrweird rt bfa m mask mode rc) s = .next t ∧
      bitAt (t.readGpr rt) 63 = (if m then bitAt n 0 || bitAt n 1 || bitAt n 2 || bitAt n 3
        else bitAt n 0 && bitAt n 1 && bitAt n 2 && bitAt n 3)) ∧
  (∀ (bt : BitVec 5) (bfa : CrfNum) (m : Bool) (mask mode : CrField) (s : State) (n : CrField),
    n = match4 mask mode (s.readCrf bfa) →
    ∃ t, exec (.crweirder bt bfa m mask mode) s = .next t ∧
      bitAt (t.readCrf (btField bt)) (btBit bt).toNat = (if m then bitAt n 0 || bitAt n 1 || bitAt n 2 || bitAt n 3
        else bitAt n 0 && bitAt n 1 && bitAt n 2 && bitAt n 3)) ∧
  (∀ (bf : CrfNum) (ra : GprNum) (m : Bool) (mask mode : CrField) (s : State) (i : Nat), i < 4 → bitAt mask i = false →
    ∃ t, exec (.mtcrweird bf ra m mask mode) s = .next t ∧
      bitAt (t.readCrf bf) i = (if m then bitAt (s.readCrf bf) i else false)) ∧
  (∀ (bf bfa : CrfNum) (m : Bool) (mask mode : CrField) (s : State) (i : Nat), i < 4 → bitAt mask i = false →
    ∃ t, exec (.crweird bf bfa m mask mode) s = .next t ∧
      bitAt (t.readCrf bf) i = (if m then bitAt (s.readCrf bf) i else false)) ∧
  (∀ (x : BitVec 5) (w : Insn) (m : Bool),
    ((∃ rt bfa mask mode rc, decodeWord x w = .ok (.crrweird rt bfa m mask mode rc)) ∨
     (∃ bf ra mask mode, decodeWord x w = .ok (.mtcrweird bf ra m mask mode)) ∨
     (∃ bt bfa mask mode, decodeWord x w = .ok (.crweirder bt bfa m mask mode)) ∨
     (∃ bf bfa mask mode, decodeWord x w = .ok (.crweird bf bfa m mask mode))) →
    m = bitAt w 11)

/-! ## Pseudo-ops (44_pseudo_ops.md) -/

/-- 44_pseudo_ops.md R120, R121, R122 (derived there): `mtcri` loads the field, `mtcrset` sets the masked bits, `mtcrclr` clears
them. -/
def Obligations.PseudoOpsLoadSetAndClear : Prop :=
  ∀ (bf : CrfNum) (v : CrField) (s : State),
    (∃ t, exec (.mtcri bf v) s = .next t ∧ t.readCrf bf = v) ∧
    (∃ t, exec (.mtcrset bf v) s = .next t ∧ t.readCrf bf = s.readCrf bf ||| v) ∧
    (∃ t, exec (.mtcrclr bf v) s = .next t ∧ t.readCrf bf = s.readCrf bf &&& ~~~v)

/-- 44_pseudo_ops.md R120 to R123: an instruction does what its expansion does. -/
def Obligations.PseudoOpsActAsTheirExpansions : Prop :=
  ∀ (i : Instr) (s : State), exec i s = exec i.expand s

/-! ## Frames, read and write sets (10_state.md R21, R25; 70_reset_and_hazards.md R177) -/

/-- The frame of the six instructions that write one CR field (10_state.md R21, R25, 70_reset_and_hazards.md R177): `mtcrweird`,
`crweird`, `mtcri`, `mtcrset`, `mtcrclr` change no general register, no CR field but `CRF[BF]`, no other state and no byte of
memory; `crweirder` the same with `CRF[BT[2:4]]`. `pc` may change. -/
def Obligations.CrWritersChangeOneField : Prop :=
  ∀ (bf bfa : CrfNum) (ra : GprNum) (bt : BitVec 5) (m : Bool) (mask mode : CrField) (i : Instr) (f : CrfNum) (s t : State),
    ((f = bf ∧ (i = .mtcrweird bf ra m mask mode ∨ i = .crweird bf bfa m mask mode ∨ i = .mtcri bf mode ∨
        i = .mtcrset bf mask ∨ i = .mtcrclr bf mask)) ∨
     (f.toNat = bt.toNat % 8 ∧ i = .crweirder bt bfa m mask mode)) →
    exec i s = .next t →
    (∀ n, t.readGpr n = s.readGpr n) ∧ (∀ g, g ≠ f → t.readCrf g = s.readCrf g) ∧ SameBeside s t

/-- The frame of `crrweird` (10_state.md R21, R25): no general register but `GPR[RT]`; no CR field when `Rc = 0` and none but
`CRF[0]` when `Rc = 1`; no other state and no byte of memory. `pc` may change. -/
def Obligations.CrrweirdChangesOneRegister : Prop :=
  ∀ (rt : GprNum) (bfa : CrfNum) (m : Bool) (mask mode : CrField) (rc : Bool) (s t : State),
    exec (.crrweird rt bfa m mask mode rc) s = .next t →
    (∀ n, n ≠ rt → t.readGpr n = s.readGpr n) ∧ (∀ g, (rc = true ∧ g = 0#3) ∨ t.readCrf g = s.readCrf g) ∧ SameBeside s t

/-- 70_reset_and_hazards.md R177 (the table, derived there): what an instruction writes depends only on what it reads, in
particular not on the old `CRF[BF]` when `M = 0`; and a general register or a CR field that is not in its write set keeps its
value (`pc`, which no row of the table lists, moves on by 4: `EveryInstructionCompletesAndAdvances`). -/
def Obligations.ReadAndWriteSets : Prop :=
  (∀ (i : Instr) (s s' t t' : State), exec i s = .next t → exec i s' = .next t' → AgreeOnReads i s s' → AgreeOnWrites i t t') ∧
  (∀ (i : Instr) (s t : State), exec i s = .next t →
    (∀ n, n ∉ writesGpr i → t.readGpr n = s.readGpr n) ∧ (∀ f, f ∉ writesCrf i → t.readCrf f = s.readCrf f))

/-- 10_state.md R21, 40_crrweird.md R81 (Q1, Q9 of 95_test_vectors.md; decision D5): a step that changes a general register
runs a `crrweird` whose `RT` it is, and leaves 0 or 1 in it. -/
def Obligations.OnlyCrrweirdChangesARegister : Prop :=
  ∀ (s t : State) (n : GprNum), step s = .next t → t.readGpr n ≠ s.readGpr n →
    (∃ w bfa m mask mode rc, fetchWord s = .next w ∧ decodeWord s.cfg.xoHi w = .ok (.crrweird n bfa m mask mode rc)) ∧
    (t.readGpr n = 0#64 ∨ t.readGpr n = 1#64)

/-- 10_state.md R25 (derived there): a step changes at most one CR field, and at most one general register. -/
def Obligations.AStepChangesAtMostOneField : Prop :=
  ∀ (s t : State), step s = .next t →
    (∃ f, ∀ g, g ≠ f → t.readCrf g = s.readCrf g) ∧ (∃ n, ∀ k, k ≠ n → t.readGpr k = s.readGpr k)

/-- 10_state.md R24 (decision D7): field `n` stands at `CR[32+4n : 35+4n]`, `CRF[0]` leftmost. -/
def Obligations.FieldPositionsInTheCr : Prop :=
  ∀ (s : State) (n : CrfNum), s.readCrf n = bitsFrom s.cr (4 * n.toNat) 4

/-! ## Launch, text and runs (20_memory.md, 70_reset_and_hazards.md) -/

/-- 10_state.md R32, R26, 20_memory.md R40, R48: no step changes the launch parameters, the text or `XER_SO` (that the
parameters stand in State is the model's choice, log 6). -/
def Obligations.StepsKeepParametersAndText : Prop :=
  ∀ (k : Nat) (s t : State), reaches k s t → t.cfg = s.cfg ∧ t.mem = s.mem ∧ t.xerSo = s.xerSo

/-- The invariant of a run: legal parameters, canonical memory that lists text bytes only, `pc` aligned and inside the text or
at its end (20_memory.md R40, R43, 60_exceptions.md R153; the memory form is the model's, log 5). Every step keeps it. -/
def Obligations.StepKeepsWellFormedness : Prop :=
  ∀ (s t : State), s.Wf → step s = .next t → t.Wf

/-- Reset meets the invariant, `pc` is `TEXT_BASE` (10_state.md R31), and nothing is listed in memory; the parameter values at
reset and the zero registers are the model's (log 1 to 4). -/
def Obligations.ResetIsWellFormed : Prop :=
  State.reset.Wf ∧ State.reset.pc = State.reset.cfg.textBase ∧ State.reset.mem = []

/-- 70_reset_and_hazards.md R170, 20_memory.md R40 (decisions D13, D20): a launch with a text that fits starts at `TEXT_BASE`
with the parameters (R172) and the registers given and every word of the text at its place, in either byte order, and is
well-formed. -/
def Obligations.LaunchPlacesTheText : Prop :=
  ∀ (x : BitVec 5) (e : Endian) (base : Word) (text : List Insn) (gpr : Vector Word 32) (crf : Vector CrField 8) (so : Bool)
    (s : State), s = launch x e base text gpr crf so →
    base.toNat % 4 = 0 → base.toNat + 4 * text.length < 2 ^ 64 →
    s.Wf ∧ s.cfg = { xoHi := x, insnEndian := e, textBase := base, textLen := text.length } ∧ s.pc = base ∧ s.gpr = gpr ∧ s.crf = crf ∧ s.xerSo = so ∧ s.wordsLeft = text.length ∧
    ∀ k (hk : k < text.length), s.wordAhead k = text[k]

/-- 60_exceptions.md R153 (decisions D12, D17): a run that starts well-formed never raises a fetch fault. -/
def Obligations.NoFetchFaultInARun : Prop :=
  ∀ (k : Nat) (s t : State) (p : Word), s.Wf → reaches k s t → step t ≠ .fault (.fetchFault p)

/-- 70_reset_and_hazards.md R174 (derived there): every run ends: from a well-formed state no run has more steps than words
left in the text. -/
def Obligations.RunsTerminate : Prop :=
  ∀ (k : Nat) (s t : State), s.Wf → reaches k s t →
    k ≤ s.wordsLeft ∧ s.wordsLeft ≤ s.cfg.textLen ∧ t.pc.toNat = s.pc.toNat + 4 * k

/-- 70_reset_and_hazards.md R173 (decision D21): when every word from `pc` to the end of the text is legal, the run takes
exactly one step a word and then ends, at the address past the text. -/
def Obligations.LegalTextRunsToItsEnd : Prop :=
  ∀ s : State, s.Wf → s.LegalAhead → ∃ t, reaches s.wordsLeft s t ∧ t.pc.toNat = s.textEnd ∧ step t = .refused .endOfRun

/-- 70_reset_and_hazards.md R173, 60_exceptions.md R151 (decisions D17, D21): the first illegal word stops the run with its
address and the word, after one step for each word before it. -/
def Obligations.FirstIllegalWordStopsTheRun : Prop :=
  ∀ (s : State) (k : Nat), s.Wf → k < s.wordsLeft →
    (∀ j, j < k → legalWord s.cfg.xoHi (s.wordAhead j) = true) → legalWord s.cfg.xoHi (s.wordAhead k) = false →
    ∃ t, reaches k s t ∧ step t = .fault (.illegalInstruction (s.pc + BitVec.ofNat 64 (4 * k)) (s.wordAhead k))

/-- 95_test_vectors.md Q8 (41_mtcrweird.md R92, 40_crrweird.md R83, both derived): `mtcrweird` with full mask and mode, then
`crrweird` on one bit of the same field, brings the low bit of a register back to a register. -/
def Obligations.RegisterBitRoundTrip : Prop :=
  ∀ (bf : CrfNum) (ra rt : GprNum) (s : State), ra ≠ 0#5 →
    ∃ t u, exec (.mtcrweird bf ra false 0b1111#4 0b1111#4) s = .next t ∧
      exec (.crrweird rt bf true 0b0001#4 0b0001#4 false) t = .next u ∧ u.readGpr rt = s.readGpr ra &&& 1#64

/-- Two canonical memories that read the same everywhere are the same data (the form is the model's, log 5). -/
def Obligations.CanonicalMemoryIsUnique : Prop :=
  ∀ (m n : List Host.Cell), Memory.wf m = true → Memory.wf n = true → (∀ a, Memory.read m a = Memory.read n a) → m = n

/-- A word placed by `withFetchWord` is the word the next step fetches, and the registers are as before; at an aligned `pc` of
the text so are the parameters, `pc` and every other byte (the model's own operation, log 23). -/
def Obligations.PlacedWordIsFetched : Prop :=
  ∀ (s : State) (w : Nat), Memory.wf s.mem = true → w < 2 ^ 32 →
    fetchWord (s.withFetchWord 32 w) = .next (BitVec.ofNat 32 w) ∧
    (s.withFetchWord 32 w).gpr = s.gpr ∧ (s.withFetchWord 32 w).crf = s.crf ∧ (s.withFetchWord 32 w).xerSo = s.xerSo ∧
    (s.withFetchWord 32 w).cfg.xoHi = s.cfg.xoHi ∧
    (s.inText s.pc.toNat = true → s.pc.toNat % 4 = 0 → (s.withFetchWord 32 w).cfg = s.cfg ∧ (s.withFetchWord 32 w).pc = s.pc ∧
      ∀ a, a < s.pc.toNat ∨ s.pc.toNat + 4 ≤ a → (s.withFetchWord 32 w).readByte a = s.readByte a)

/-! ## Assembler (30_encoding.md R71 to R74) -/

/-- 30_encoding.md R71, R72, R74 (R71 with decision D23): a line assembles exactly when its operands are those of its
mnemonic, in order and in range. -/
def Obligations.AssemblesExactlyTheWellFormedLines : Prop :=
  ∀ l : AsmLine, (assemble l).isSome = l.wellFormed

/-- 30_encoding.md R71 (its column of the field each operand fills; decision D23 for `crweirder`), R72, R74, with the layouts of R75
(selector by decision D2, `BF` of `crweird` by D3): every line with operands in range assembles, and to the word with each operand
in its field: `RT`, `RA` and `BT` in slot `S6`, `BF` of `crweird` in its high three bits, `BFA` and `BF` of `mtcrweird` in slot `S16`,
`M`, `mask` and `mode` in theirs, `Rc` 1 for `crrweird.` only. A field is written `N` or `crN`. -/
def Obligations.OperandsFillTheirFields : Prop :=
  ∀ (x : BitVec 5) (c c' : Nat → Operand) (r bt bf bfa m k d rest : Nat),
    (c = .num ∨ c = .crf) → (c' = .num ∨ c' = .crf) → r < 32 → bt < 32 → bf < 8 → bfa < 8 → m < 2 → k < 16 → d < 16 →
    rest = 19 * 2 ^ 26 + m * 2 ^ 20 + k * 2 ^ 16 + x.toNat * 2 ^ 6 + d * 2 →
    (assemble ⟨.crrweird, [.reg r, c bfa, .num m, .pair k d]⟩).map (fun i => (encode x i).toNat) =
      some (rest + r * 2 ^ 21 + bfa * 2 ^ 13) ∧
    (assemble ⟨.crrweirdDot, [.reg r, c bfa, .num m, .pair k d]⟩).map (fun i => (encode x i).toNat) =
      some (rest + r * 2 ^ 21 + bfa * 2 ^ 13 + 1) ∧
    (assemble ⟨.mtcrweird, [c bf, .reg r, .num m, .pair k d]⟩).map (fun i => (encode x i).toNat) =
      some (rest + r * 2 ^ 21 + bf * 2 ^ 13 + 1 * 2 ^ 11) ∧
    (assemble ⟨.crweirder, [.num bt, c bfa, .num m, .pair k d]⟩).map (fun i => (encode x i).toNat) =
      some (rest + bt * 2 ^ 21 + bfa * 2 ^ 13 + 2 * 2 ^ 11) ∧
    (assemble ⟨.crweird, [c bf, c' bfa, .num m, .pair k d]⟩).map (fun i => (encode x i).toNat) =
      some (rest + bf * 2 ^ 23 + bfa * 2 ^ 13 + 3 * 2 ^ 11)

/-- 44_pseudo_ops.md R120 to R122, 30_encoding.md R73: a pseudo-op line and the line it expands to assemble to one word, and do
assemble, for every field number and every 4-bit operand; `r0` and `0` are the same `RA` operand (30_encoding.md R74). -/
def Obligations.PseudoOpLinesAssembleAsTheirExpansions : Prop :=
  ∀ (x : BitVec 5) (bf v : Nat), bf < 8 → v < 16 →
    (assemble ⟨.mtcri, [.num bf, .num v]⟩).map (encode x) =
      (assemble ⟨.mtcrweird, [.num bf, .reg 0, .num 0, .pair 15 (15 - v)]⟩).map (encode x) ∧
    (assemble ⟨.mtcrset, [.num bf, .num v]⟩).map (encode x) =
      (assemble ⟨.mtcrweird, [.num bf, .num 0, .num 1, .pair v 0]⟩).map (encode x) ∧
    (assemble ⟨.mtcrclr, [.num bf, .num v]⟩).map (encode x) =
      (assemble ⟨.mtcrweird, [.crf bf, .reg 0, .num 1, .pair v 15]⟩).map (encode x) ∧
    (assemble ⟨.mtcri, [.num bf, .num v]⟩).isSome = true ∧ (assemble ⟨.mtcrset, [.num bf, .num v]⟩).isSome = true ∧
    (assemble ⟨.mtcrclr, [.num bf, .num v]⟩).isSome = true

/-! ## Vectorised forms (45_vectorised.md) -/

/-- 45_vectorised.md R132 (derived there), R131: `sv.crrweird` to a vector packs the results of `P` elements in a register: when
it answers, register `RT + k` holds in LSB0 bit `j` the result of element `i = k*P + j`, which tests CR field `BB + i` of a vector
`BB` and `BB` of a scalar one, and zero from bit `P` up; no other register and no CR field changes. It holds for every value of
the bits the spec leaves open (decision D28, log 18). -/
def Obligations.VectorDestinationPacksResults : Prop :=
  ∀ (draw : Word) (a : SvCrrweird) (f g : VecFiles), a.rtIsVec = true → execSv draw (.crrweird a) f = .next g →
    g.crf = f.crf ∧ g.gpr.length = f.gpr.length ∧
    (∀ k j i, j < packSize a.bbElwidth → i = k * packSize a.bbElwidth + j → i < a.vl →
      (g.gpr.getD (a.rt + k) 0#64).getLsbD j =
        reduce1 a.m (match4 a.mask a.mode (f.crf.getD (if a.bbIsVec then a.bb + i else a.bb) 0#4))) ∧
    (∀ k j, k * packSize a.bbElwidth < a.vl → packSize a.bbElwidth ≤ j → (g.gpr.getD (a.rt + k) 0#64).getLsbD j = false) ∧
    (∀ r, r < a.rt ∨ (∀ k, r = a.rt + k → a.vl ≤ k * packSize a.bbElwidth) → g.gpr.getD r 0#64 = f.gpr.getD r 0#64)

/-- 45_vectorised.md R133, R131 (decision D28): `sv.crrweird` to a scalar puts the result of element `i`, which tests CR field
`BB + i` of a vector `BB` and `BB` of a scalar one, in LSB0 bit `i` of `RT`; the bits from `VL` up are the open value (log 18, for
`VL = 0` too, where an `RT` outside the file writes nothing); no other register and no CR field changes. -/
def Obligations.ScalarDestinationCollectsBits : Prop :=
  ∀ (draw : Word) (a : SvCrrweird) (f g : VecFiles), a.rtIsVec = false → execSv draw (.crrweird a) f = .next g →
    g.crf = f.crf ∧ g.gpr.length = f.gpr.length ∧
    (∀ i, i < a.vl → (g.gpr.getD a.rt 0#64).getLsbD i =
      reduce1 a.m (match4 a.mask a.mode (f.crf.getD (if a.bbIsVec then a.bb + i else a.bb) 0#4))) ∧
    (∀ i, a.vl ≤ i → a.rt < f.gpr.length → (g.gpr.getD a.rt 0#64).getLsbD i = draw.getLsbD i) ∧
    (∀ r, r ≠ a.rt → g.gpr.getD r 0#64 = f.gpr.getD r 0#64)

/-- 45_vectorised.md R131, 40_crrweird.md R80: on the scalar machine's files, one element with no packing is the scalar
`crrweird`. -/
def Obligations.OneElementIsTheScalarInstruction : Prop :=
  ∀ (draw : Word) (a : SvCrrweird) (s t : State) (rt : GprNum) (bfa : CrfNum),
    a.described = true → a.rtIsVec = true → a.rtElwidth = .default → a.bbElwidth = 0#2 → a.vl = 1 → a.rt = rt.toNat →
    a.bb = bfa.toNat →
    exec (.crrweird rt bfa a.m a.mask a.mode false) s = .next t →
    execSv draw (.crrweird a) s.files = .next t.files

/-- 45_vectorised.md R135, R137 (derived from R134, R136): `sv.mtcrweird`, where the spec describes it, on files with at least 8
CR fields and 32 general registers that hold every register and field it uses, gives each element's field the scalar result on
LSB0 bit `i` of `(RA|0)` where the predicate bit is 1, zero where it is 0; with `RA = 0` that is `mask & ~mode` or zero. The
predicate bit is LSB0 bit `i` of a general register or of the bits given for a CR-vector, complemented under inversion
(10_state.md R29, log 26). No general register and no other field changes. -/
def Obligations.PredicatedMtcrweirdFields : Prop :=
  ∀ (draw : Word) (a : SvMtcrweird) (f : VecFiles) (n : Nat) (bits : Word) (inverted : Bool),
    a.described = true →
    (a.dm = some (.gpr n inverted) ∧ n < f.gpr.length ∧ bits = f.gpr.getD n 0#64 ∨ a.dm = some (.crVector bits inverted)) →
    8 ≤ f.crf.length → 32 ≤ f.gpr.length → a.vl ≤ 64 → a.bf + a.vl ≤ f.crf.length → a.ra < f.gpr.length →
    ∃ g, execSv draw (.mtcrweird a) f = .next g ∧ g.gpr = f.gpr ∧ g.crf.length = f.crf.length ∧
      (∀ i, i < a.vl → g.crf.getD (a.bf + i) 0#4 =
        if bits.getLsbD i ≠ inverted then
          (if a.ra ≠ 0 ∧ (f.gpr.getD a.ra 0#64).getLsbD i = true then a.mask &&& a.mode else a.mask &&& ~~~a.mode)
        else 0#4) ∧
      (∀ r, r < a.bf ∨ a.bf + a.vl ≤ r → g.crf.getD r 0#4 = f.crf.getD r 0#4)

/-- 45_vectorised.md R130, R132, R133, R138, 00_scope.md R7 (decisions D26, D27; 93 U9, U10, U13, U14): what the spec does not
describe is refused: by name the two forms it says nothing of, every `sv.mtcrweird` but the described one (an element width of
`BF` among them, the model's choice, log 27) and every `sv.crrweird` with a record bit, a mask, zeroing or a mode; and a destination
element width, `VL` past the 64 bits of a register, files with fewer than 8 CR fields or 32 general registers,
and a register or field that some element uses outside its file. With `VL = 0` no element uses any (log 17). -/
def Obligations.UndescribedVectorFormsAreRefused : Prop :=
  ∀ (draw : Word) (f : VecFiles) (a : SvCrrweird) (b : SvMtcrweird),
    execSv draw .crweird f = .refused (.svNotDescribed "sv.crweird") ∧
    execSv draw .crweirder f = .refused (.svNotDescribed "sv.crweirder") ∧
    (b.bfIsVec = false ∨ b.bfElwidth ≠ 0b00#2 ∨ b.raIsVec = true ∨ b.raElwidth ≠ .default ∨ b.m = true ∨ b.sm ≠ none ∨
        b.zeroing = false ∨ b.svMode ≠ .normal ∨ b.dm = none →
      execSv draw (.mtcrweird b) f = .refused (.svNotDescribed "sv.mtcrweird")) ∧
    (a.rc = true ∨ a.dm ≠ none ∨ a.sm ≠ none ∨ a.zeroing = true ∨ a.svMode ≠ .normal →
      execSv draw (.crrweird a) f = .refused (.svNotDescribed "sv.crrweird")) ∧
    (a.rtElwidth ≠ .default → ∃ r, execSv draw (.crrweird a) f = .refused r) ∧
    (a.rtIsVec = false → 64 < a.vl → ∃ r, execSv draw (.crrweird a) f = .refused r) ∧
    (64 < b.vl → ∃ r, execSv draw (.mtcrweird b) f = .refused r) ∧
    (f.crf.length < 8 ∨ f.gpr.length < 32 →
      (∃ r, execSv draw (.crrweird a) f = .refused r) ∧ ∃ r, execSv draw (.mtcrweird b) f = .refused r) ∧
    (∀ i, i < a.vl →
      f.crf.length ≤ (if a.bbIsVec then a.bb + i else a.bb) ∨
        f.gpr.length ≤ (if a.rtIsVec then a.rt + i / packSize a.bbElwidth else a.rt) →
      ∃ r, execSv draw (.crrweird a) f = .refused r) ∧
    (∀ i n inverted, i < b.vl →
      f.crf.length ≤ b.bf + i ∨ f.gpr.length ≤ b.ra ∨ (b.dm = some (.gpr n inverted) ∧ f.gpr.length ≤ n) →
      ∃ r, execSv draw (.mtcrweird b) f = .refused r)

/-- 45_vectorised.md R131, R135, R137 (decision D26, log 17): the vectorised forms answer exactly where the spec describes them
and the files hold what they use: `sv.crrweird` without record bit, mask, zeroing or mode, of the default element width, with `VL <= 64` for a scalar
destination; `sv.mtcrweird` as R135 has it (with no element width of `BF`: log 27), with `VL <= 64`. The rest is refused, never a fault. -/
def Obligations.VectorFormsAnswerExactlyWhereDescribed : Prop :=
  ∀ (draw : Word) (f : VecFiles),
    (∀ a : SvCrrweird, (∃ g, execSv draw (.crrweird a) f = .next g) ↔
      a.rc = false ∧ a.dm = none ∧ a.sm = none ∧ a.zeroing = false ∧ a.svMode = .normal ∧ a.rtElwidth = .default ∧ 8 ≤ f.crf.length ∧ 32 ≤ f.gpr.length ∧ (a.rtIsVec = true ∨ a.vl ≤ 64) ∧
      ∀ i, i < a.vl → (if a.bbIsVec then a.bb + i else a.bb) < f.crf.length ∧
        (if a.rtIsVec then a.rt + i / packSize a.bbElwidth else a.rt) < f.gpr.length) ∧
    (∀ b : SvMtcrweird, (∃ g, execSv draw (.mtcrweird b) f = .next g) ↔
      b.bfIsVec = true ∧ b.bfElwidth = 0b00#2 ∧ b.raIsVec = false ∧ b.raElwidth = .default ∧ b.m = false ∧ b.sm = none ∧
      b.zeroing = true ∧ b.svMode = .normal ∧ b.dm ≠ none ∧ 8 ≤ f.crf.length ∧ 32 ≤ f.gpr.length ∧ b.vl ≤ 64 ∧
      ∀ i, i < b.vl → b.bf + i < f.crf.length ∧ b.ra < f.gpr.length ∧
        ∀ n inverted, b.dm = some (.gpr n inverted) → n < f.gpr.length) ∧
    (∀ (i : SvInstr) (x : Fault), execSv draw i f ≠ .fault x)
end

