-- ==== Sys2Proof/Laws/Encoding.lean ====
section
/-! SUPPORT. The fields of a word: what the assembling function puts in each (30_encoding.md R56, R75), the word from its
fields, and the bytes of a word (20_memory.md R42). -/

namespace Sys2Proof

section
variable (s6 : BitVec 5) (m : Bool) (mask : CrField) (s16 : BitVec 3) (sel : BitVec 2) (xoHi : BitVec 5)
  (mode : CrField) (rc : Bool)

/-- `insn[0:5]`, `PO` -/
@[simp] theorem bitsFrom_cwForm_PO : bitsFrom (cwForm s6 m mask s16 sel xoHi mode rc) 0 6 = 19#6 := by
  apply BitVec.eq_of_getLsbD_eq
  intro i hi
  interval_cases i <;> simp [cwForm, bitsFrom]

/-- `insn[6:10]`, `S6` -/
@[simp] theorem bitsFrom_cwForm_S6 : bitsFrom (cwForm s6 m mask s16 sel xoHi mode rc) 6 5 = s6 := by
  apply BitVec.eq_of_getLsbD_eq
  intro i hi
  interval_cases i <;> simp [cwForm, bitsFrom]

/-- `insn[6:8]`, the three high bits of `S6` -/
@[simp] theorem bitsFrom_cwForm_S6_high : bitsFrom (cwForm s6 m mask s16 sel xoHi mode rc) 6 3 = bitsFrom s6 0 3 := by
  apply BitVec.eq_of_getLsbD_eq
  intro i hi
  interval_cases i <;> simp [cwForm, bitsFrom]

/-- `insn[9:10]`, the two low bits of `S6` -/
@[simp] theorem bitsFrom_cwForm_S6_low : bitsFrom (cwForm s6 m mask s16 sel xoHi mode rc) 9 2 = bitsFrom s6 3 2 := by
  apply BitVec.eq_of_getLsbD_eq
  intro i hi
  interval_cases i <;> simp [cwForm, bitsFrom]

/-- `insn[11]`, `M` -/
@[simp] theorem bitAt_cwForm_M : bitAt (cwForm s6 m mask s16 sel xoHi mode rc) 11 = m := by
  simp [cwForm, bitAt, BitVec.getMsbD]

/-- `insn[12:15]`, `mask` -/
@[simp] theorem bitsFrom_cwForm_mask : bitsFrom (cwForm s6 m mask s16 sel xoHi mode rc) 12 4 = mask := by
  apply BitVec.eq_of_getLsbD_eq
  intro i hi
  interval_cases i <;> simp [cwForm, bitsFrom]

/-- `insn[16:18]`, `S16` -/
@[simp] theorem bitsFrom_cwForm_S16 : bitsFrom (cwForm s6 m mask s16 sel xoHi mode rc) 16 3 = s16 := by
  apply BitVec.eq_of_getLsbD_eq
  intro i hi
  interval_cases i <;> simp [cwForm, bitsFrom]

/-- `insn[19:20]`, `SEL` -/
@[simp] theorem bitsFrom_cwForm_SEL : bitsFrom (cwForm s6 m mask s16 sel xoHi mode rc) 19 2 = sel := by
  apply BitVec.eq_of_getLsbD_eq
  intro i hi
  interval_cases i <;> simp [cwForm, bitsFrom]

/-- `insn[21:25]`, `XO_HI` -/
@[simp] theorem bitsFrom_cwForm_XO_HI : bitsFrom (cwForm s6 m mask s16 sel xoHi mode rc) 21 5 = xoHi := by
  apply BitVec.eq_of_getLsbD_eq
  intro i hi
  interval_cases i <;> simp [cwForm, bitsFrom]

/-- `insn[26]`, `Z` -/
@[simp] theorem bitAt_cwForm_Z : bitAt (cwForm s6 m mask s16 sel xoHi mode rc) 26 = false := by
  simp [cwForm, bitAt, BitVec.getMsbD]

/-- `insn[27:30]`, `mode` -/
@[simp] theorem bitsFrom_cwForm_mode : bitsFrom (cwForm s6 m mask s16 sel xoHi mode rc) 27 4 = mode := by
  apply BitVec.eq_of_getLsbD_eq
  intro i hi
  interval_cases i <;> simp [cwForm, bitsFrom]

/-- `insn[31]`, `Rc` -/
@[simp] theorem bitAt_cwForm_Rc : bitAt (cwForm s6 m mask s16 sel xoHi mode rc) 31 = rc := by
  simp [cwForm, bitAt, BitVec.getMsbD]

end

/-- A word with the fixed fields of the CW-form is assembled from its own fields. -/
theorem cwForm_of_fields (w : Insn) (hp : bitsFrom w 0 6 = 19#6) (hz : bitAt w 26 = false) :
    cwForm (bitsFrom w 6 5) (bitAt w 11) (bitsFrom w 12 4) (bitsFrom w 16 3) (bitsFrom w 19 2) (bitsFrom w 21 5)
      (bitsFrom w 27 4) (bitAt w 31) = w := by
  have hb : ∀ i, (bitsFrom w 0 6).getLsbD i = (19#6).getLsbD i := fun i => by rw [hp]
  have h0 := hb 0; have h1 := hb 1; have h2 := hb 2; have h3 := hb 3; have h4 := hb 4; have h5 := hb 5
  simp [bitsFrom] at h0 h1 h2 h3 h4 h5
  simp [bitAt, BitVec.getMsbD] at hz
  apply BitVec.eq_of_getLsbD_eq
  intro i hi
  interval_cases i <;> simp [cwForm, bitsFrom, bitAt, BitVec.getMsbD, h0, h1, h2, h3, h4, h5, hz]

/-- The `S6` slot of `crweird`: the destination field in the three high bits, two zero bits below (30_encoding.md R60). -/
@[simp] theorem bitsFrom_crweird_slot_high (bf : CrfNum) : bitsFrom (bf.setWidth 5 <<< 2) 0 3 = bf := by
  revert bf; decide

@[simp] theorem bitsFrom_crweird_slot_low (bf : CrfNum) : bitsFrom (bf.setWidth 5 <<< 2) 3 2 = 0b00#2 := by
  revert bf; decide

/-- A slot whose two low bits are zero is its three high bits, shifted. -/
theorem crweird_slot_of_low_zero (s6 : BitVec 5) (h : bitsFrom s6 3 2 = 0b00#2) :
    (bitsFrom s6 0 3).setWidth 5 <<< 2 = s6 := by
  revert s6; decide

/-- What a word that decodes looks like: the three fixed fields, the selector, the reserved bits, and the operands
(30_encoding.md R67). -/
theorem decodeWord_ok_cases {x : BitVec 5} {w : Insn} {i : Instr} (h : decodeWord x w = .ok i) :
    bitsFrom w 0 6 = 19#6 ∧ bitsFrom w 21 5 = x ∧ bitAt w 26 = false ∧
      ((bitsFrom w 19 2 = 0b00#2 ∧ i = .crrweird (bitsFrom w 6 5) (bitsFrom w 16 3) (bitAt w 11) (bitsFrom w 12 4)
          (bitsFrom w 27 4) (bitAt w 31)) ∨
       (bitsFrom w 19 2 = 0b01#2 ∧ bitAt w 31 = false ∧
          i = .mtcrweird (bitsFrom w 16 3) (bitsFrom w 6 5) (bitAt w 11) (bitsFrom w 12 4) (bitsFrom w 27 4)) ∨
       (bitsFrom w 19 2 = 0b10#2 ∧ bitAt w 31 = false ∧
          i = .crweirder (bitsFrom w 6 5) (bitsFrom w 16 3) (bitAt w 11) (bitsFrom w 12 4) (bitsFrom w 27 4)) ∨
       (bitsFrom w 19 2 = 0b11#2 ∧ bitAt w 31 = false ∧ bitsFrom w 9 2 = 0b00#2 ∧
          i = .crweird (bitsFrom w 6 3) (bitsFrom w 16 3) (bitAt w 11) (bitsFrom w 12 4) (bitsFrom w 27 4))) := by
  have four : ∀ s : BitVec 2, s ≠ 0b00#2 → s ≠ 0b01#2 → s ≠ 0b10#2 → s = 0b11#2 := by decide
  unfold decodeWord at h
  split at h
  · cases h
  rename_i hp
  split at h
  · cases h
  rename_i hx
  split at h
  · cases h
  rename_i hz
  refine ⟨Decidable.not_not.1 hp, Decidable.not_not.1 hx, by simpa using hz, ?_⟩
  simp only at h
  split at h
  · rename_i hs
    cases h
    exact .inl ⟨hs, rfl⟩
  rename_i n0
  split at h
  · cases h
  rename_i hrc
  have hrc : bitAt w 31 = false := by simpa using hrc
  split at h
  · rename_i hs
    cases h
    exact .inr (.inl ⟨hs, hrc, rfl⟩)
  rename_i n1
  split at h
  · rename_i hs
    cases h
    exact .inr (.inr (.inl ⟨hs, hrc, rfl⟩))
  rename_i n2
  split at h
  · cases h
  rename_i hr
  cases h
  exact .inr (.inr (.inr ⟨four _ n0 n1 n2, hrc, Decidable.not_not.1 hr, rfl⟩))

/-- A slice as a number: shift right, keep the low bits (00_scope.md R9). -/
theorem toNat_bitsFrom (w : Insn) (a n : Nat) : (bitsFrom w a n).toNat = w.toNat / 2 ^ (32 - a - n) % 2 ^ n := by
  simp [bitsFrom, Nat.shiftRight_eq_div_pow]

/-- A bit of a word as a number. -/
theorem toNat_bitAt (w : Insn) {i : Nat} (hi : i < 32) : (bitAt w i).toNat = w.toNat / 2 ^ (31 - i) % 2 := by
  rw [bitAt, BitVec.getMsbD, decide_eq_true hi, Bool.true_and, show 32 - 1 - i = 31 - i by omega, ← BitVec.testBit_toNat,
    Nat.toNat_testBit]

/-- The assembling function as a sum: each field times the weight of its place (30_encoding.md R56, R75). -/
theorem toNat_cwForm (s6 : BitVec 5) (m : Bool) (mask : CrField) (s16 : BitVec 3) (sel : BitVec 2) (xoHi : BitVec 5)
    (mode : CrField) (rc : Bool) :
    (cwForm s6 m mask s16 sel xoHi mode rc).toNat = 19 * 2 ^ 26 + s6.toNat * 2 ^ 21 + m.toNat * 2 ^ 20 + mask.toNat * 2 ^ 16 +
      s16.toNat * 2 ^ 13 + sel.toNat * 2 ^ 11 + xoHi.toNat * 2 ^ 6 + mode.toNat * 2 + rc.toNat := by
  have hp := congrArg BitVec.toNat (bitsFrom_cwForm_PO s6 m mask s16 sel xoHi mode rc)
  have h1 := congrArg BitVec.toNat (bitsFrom_cwForm_S6 s6 m mask s16 sel xoHi mode rc)
  have h2 := congrArg Bool.toNat (bitAt_cwForm_M s6 m mask s16 sel xoHi mode rc)
  have h3 := congrArg BitVec.toNat (bitsFrom_cwForm_mask s6 m mask s16 sel xoHi mode rc)
  have h4 := congrArg BitVec.toNat (bitsFrom_cwForm_S16 s6 m mask s16 sel xoHi mode rc)
  have h5 := congrArg BitVec.toNat (bitsFrom_cwForm_SEL s6 m mask s16 sel xoHi mode rc)
  have h6 := congrArg BitVec.toNat (bitsFrom_cwForm_XO_HI s6 m mask s16 sel xoHi mode rc)
  have h7 := congrArg Bool.toNat (bitAt_cwForm_Z s6 m mask s16 sel xoHi mode rc)
  have h8 := congrArg BitVec.toNat (bitsFrom_cwForm_mode s6 m mask s16 sel xoHi mode rc)
  have h9 := congrArg Bool.toNat (bitAt_cwForm_Rc s6 m mask s16 sel xoHi mode rc)
  simp only [toNat_bitsFrom] at hp h1 h3 h4 h5 h6 h8
  rw [toNat_bitAt _ (by omega)] at h2 h7 h9
  generalize cwForm s6 m mask s16 sel xoHi mode rc = w at *
  have := w.isLt
  simp only [BitVec.toNat_ofNat, Bool.toNat_false] at hp h7
  omega

/-- The four bytes of a word assemble to the word again, in either byte order (20_memory.md R42). -/
theorem wordOfBytes_byteOfWord (e : Endian) (w : Insn) :
    wordOfBytes e (byteOfWord e w 0) (byteOfWord e w 1) (byteOfWord e w 2) (byteOfWord e w 3) = w := by
  apply BitVec.eq_of_getLsbD_eq
  intro i hi
  cases e <;> interval_cases i <;> simp [wordOfBytes, byteOfWord, bitsFrom]

/-- Every instruction is well-formed: the operand types admit no value a field cannot hold (60_exceptions.md R152). -/
theorem Instr.wellFormed_all (i : Instr) : i.wellFormed = true := by
  cases i <;> simp [Instr.wellFormed] <;> omega

/-- An expansion is a core instruction: expanding it again changes nothing (44_pseudo_ops.md R123). -/
@[simp] theorem Instr.expand_expand (i : Instr) : i.expand.expand = i.expand := by
  cases i <;> rfl

end Sys2Proof
end

