-- ==== Sys2Proof/Laws/Flags.lean ====
section
/-! SUPPORT. The bits of the CR field computations, one lemma per function. -/

namespace Sys2Proof.Machine

/-- Two CR fields with the same four bits are equal. -/
theorem crField_ext {x y : CrField} (h : ∀ i, i < 4 → bitAt x i = bitAt y i) : x = y := by
  have h0 := h 0 (by omega); have h1 := h 1 (by omega); have h2 := h 2 (by omega); have h3 := h 3 (by omega)
  clear h
  revert x y
  decide

section
variable (b0 b1 b2 b3 : Bool)

@[simp] theorem bitAt_concat4_0 : bitAt (concat4 b0 b1 b2 b3) 0 = b0 := by revert b0 b1 b2 b3; decide
@[simp] theorem bitAt_concat4_1 : bitAt (concat4 b0 b1 b2 b3) 1 = b1 := by revert b0 b1 b2 b3; decide
@[simp] theorem bitAt_concat4_2 : bitAt (concat4 b0 b1 b2 b3) 2 = b2 := by revert b0 b1 b2 b3; decide
@[simp] theorem bitAt_concat4_3 : bitAt (concat4 b0 b1 b2 b3) 3 = b3 := by revert b0 b1 b2 b3; decide

end

/-- The bits of a match are the bits of its definition (00_scope.md R15). -/
theorem bitAt_match4 (mask mode c : CrField) {i : Nat} (hi : i < 4) :
    bitAt (match4 mask mode c) i = matchBit mask mode c i := by
  interval_cases i <;> simp [match4]

/-- Bitwise operators act bit by bit on MSB0 bits. -/
@[simp] theorem bitAt_and {w : Nat} (x y : BitVec w) (i : Nat) : bitAt (x &&& y) i = (bitAt x i && bitAt y i) := by
  simp [bitAt]

@[simp] theorem bitAt_or {w : Nat} (x y : BitVec w) (i : Nat) : bitAt (x ||| y) i = (bitAt x i || bitAt y i) := by
  simp [bitAt]

theorem bitAt_not {w : Nat} (x : BitVec w) {i : Nat} (hi : i < w) : bitAt (~~~x) i = !bitAt x i := by
  simp [bitAt, hi]

@[simp] theorem bitAt_replicate4 (b : Bool) {i : Nat} (hi : i < 4) : bitAt (replicate4 b) i = b := by
  cases b <;> interval_cases i <;> rfl

/-- The bits of a merged field: the new bit, or the old one where the mask bit is 0 and `M` is 1. -/
theorem bitAt_mergeField (m : Bool) (mask n old : CrField) {i : Nat} (hi : i < 4) :
    bitAt (mergeField m mask n old) i = (bitAt n i || (m && bitAt old i && !bitAt mask i)) := by
  cases m
  · simp [mergeField]
  · simp only [mergeField, if_true, bitAt_or, bitAt_and, bitAt_not mask hi, Bool.true_and]

/-- The bits of a field with one bit replaced (43_crweirder.md R110). -/
theorem bitAt_setCrBit (old : CrField) (bit : BitVec 2) (r : Bool) {i : Nat} (hi : i < 4) :
    bitAt (setCrBit old bit r) i = if i = bit.toNat then r else bitAt old i := by
  interval_cases i <;> revert old bit r <;> decide

/-- `analyse` of a 0 or 1 result: EQ for 0, GT for 1, never LT (40_crrweird.md R82). -/
theorem analyse_zext64 (r so : Bool) : analyse (zext64 r) so = concat4 false r (!r) so := by
  revert r so; decide

end Sys2Proof.Machine
end

