-- ==== Sys2Proof/Laws/Memory.lean ====
section
/-! SUPPORT. The laws of memory: a read after a write, and that every operation keeps the canonical form. -/

namespace Sys2Proof.Machine

/-- Every address listed in a canonical tail lies above its head. -/
theorem Memory.wf_cons {a : Nat} {v : Byte} {t : List Host.Cell} (h : Memory.wf ((a, v) :: t) = true) :
    v ≠ Memory.unlisted ∧ (∀ c ∈ t, a < c.1) ∧ Memory.wf t = true := by
  simpa [Memory.wf, and_assoc] using h

/-- An address listed nowhere reads as the unlisted byte. -/
theorem Memory.read_of_not_listed {m : List Host.Cell} {a : Nat} (h : ∀ c ∈ m, c.1 ≠ a) :
    Memory.read m a = Memory.unlisted := by
  induction m with
  | nil => rfl
  | cons c t ih =>
    obtain ⟨b, v⟩ := c
    have hb : b ≠ a := h (b, v) (by simp)
    simp [Memory.read, Ne.symm hb, ih fun c hc => h c (by simp [hc])]

/-- Below the head of a canonical memory nothing is listed. -/
theorem Memory.read_below {m : List Host.Cell} {a : Nat} (h : ∀ c ∈ m, a < c.1) : Memory.read m a = Memory.unlisted :=
  Memory.read_of_not_listed fun c hc => by have := h c hc; omega

theorem Memory.read_consCell {a x : Nat} {v : Byte} {t : List Host.Cell} (h : ∀ c ∈ t, a < c.1) :
    Memory.read (Memory.consCell a v t) x = if x = a then v else Memory.read t x := by
  unfold Memory.consCell
  split
  · rename_i hv
    split
    · rename_i hx
      rw [hx, Memory.read_below h, hv]
    · rfl
  · rfl

theorem Memory.wf_consCell {a : Nat} {v : Byte} {t : List Host.Cell} (h : ∀ c ∈ t, a < c.1) (ht : Memory.wf t = true) :
    Memory.wf (Memory.consCell a v t) = true := by
  unfold Memory.consCell
  split
  · exact ht
  · rename_i hv
    simpa [Memory.wf, hv, ht] using h

theorem Memory.mem_consCell {a : Nat} {v : Byte} {t : List Host.Cell} {c : Host.Cell}
    (h : c ∈ Memory.consCell a v t) : c.1 = a ∨ c ∈ t := by
  unfold Memory.consCell at h
  split at h
  · exact .inr h
  · rcases List.mem_cons.1 h with rfl | h
    · exact .inl rfl
    · exact .inr h

/-- A write lists no address but its own and those listed before. -/
theorem Memory.mem_write {m : List Host.Cell} {a : Nat} {v : Byte} {c : Host.Cell}
    (h : c ∈ Memory.write m a v) : c.1 = a ∨ c ∈ m := by
  induction m with
  | nil => exact Memory.mem_consCell h
  | cons d t ih =>
    obtain ⟨b, u⟩ := d
    unfold Memory.write at h
    split at h
    · exact Memory.mem_consCell h
    · split at h
      · rcases Memory.mem_consCell h with h | h
        · exact .inl h
        · exact .inr (by simp [h])
      · rcases List.mem_cons.1 h with rfl | h
        · exact .inr (by simp)
        · rcases ih h with h | h
          · exact .inl h
          · exact .inr (by simp [h])

/-- A write keeps the canonical form. -/
theorem Memory.wf_write {m : List Host.Cell} (a : Nat) (v : Byte) (h : Memory.wf m = true) :
    Memory.wf (Memory.write m a v) = true := by
  induction m with
  | nil => exact Memory.wf_consCell (by simp) rfl
  | cons d t ih =>
    obtain ⟨b, u⟩ := d
    obtain ⟨hu, hb, ht⟩ := Memory.wf_cons h
    unfold Memory.write
    split
    · rename_i hab
      refine Memory.wf_consCell (fun c hc => ?_) h
      rcases List.mem_cons.1 hc with rfl | hc
      · exact hab
      · have := hb c hc; omega
    · split
      · rename_i hab
        subst hab
        exact Memory.wf_consCell hb ht
      · rename_i h1 h2
        have hall : ∀ c ∈ Memory.write t a v, b < c.1 := fun c hc => by
          rcases Memory.mem_write hc with hc | hc
          · omega
          · exact hb c hc
        simpa [Memory.wf, hu, ih ht] using hall

/-- A read after a write: the byte written at its address, the old byte at every other. -/
theorem Memory.read_write {m : List Host.Cell} (a : Nat) (v : Byte) (x : Nat) (h : Memory.wf m = true) :
    Memory.read (Memory.write m a v) x = if x = a then v else Memory.read m x := by
  induction m with
  | nil => exact Memory.read_consCell (by simp)
  | cons d t ih =>
    obtain ⟨b, u⟩ := d
    obtain ⟨hu, hb, ht⟩ := Memory.wf_cons h
    unfold Memory.write
    split
    · rename_i hab
      refine Memory.read_consCell fun c hc => ?_
      rcases List.mem_cons.1 hc with rfl | hc
      · exact hab
      · have := hb c hc; omega
    · split
      · rename_i hab
        subst hab
        rw [Memory.read_consCell hb]
        by_cases hx : x = a <;> simp [Memory.read, hx]
      · rename_i h1 h2
        by_cases hx : x = b
        · subst hx
          simp [Memory.read, Ne.symm h2]
        · simp [Memory.read, hx, ih ht]

/-- A word write keeps the canonical form. -/
theorem Memory.wf_writeWord {m : List Host.Cell} (e : Endian) (a : Nat) (w : Insn) (h : Memory.wf m = true) :
    Memory.wf (Memory.writeWord e m a w) = true :=
  Memory.wf_write _ _ (Memory.wf_write _ _ (Memory.wf_write _ _ (Memory.wf_write _ _ h)))

/-- A word write lists only its own four addresses and those listed before. -/
theorem Memory.mem_writeWord {m : List Host.Cell} {e : Endian} {a : Nat} {w : Insn} {c : Host.Cell}
    (h : c ∈ Memory.writeWord e m a w) : (a ≤ c.1 ∧ c.1 < a + 4) ∨ c ∈ m := by
  rcases Memory.mem_write h with h | h
  · left; omega
  rcases Memory.mem_write h with h | h
  · left; omega
  rcases Memory.mem_write h with h | h
  · left; omega
  rcases Memory.mem_write h with h | h
  · left; omega
  · exact .inr h

/-- A text write keeps the canonical form. -/
theorem Memory.wf_writeText (e : Endian) (ws : List Insn) {m : List Host.Cell} (a : Nat) (h : Memory.wf m = true) :
    Memory.wf (Memory.writeText e m a ws) = true := by
  induction ws generalizing m a with
  | nil => exact h
  | cons w ws ih => exact ih (a + 4) (Memory.wf_writeWord e a w h)

/-- A text write lists only addresses of its own words and those listed before. -/
theorem Memory.mem_writeText {e : Endian} {ws : List Insn} {m : List Host.Cell} {a : Nat} {c : Host.Cell}
    (h : c ∈ Memory.writeText e m a ws) : (a ≤ c.1 ∧ c.1 < a + 4 * ws.length) ∨ c ∈ m := by
  induction ws generalizing m a with
  | nil => exact .inr h
  | cons w ws ih =>
    rw [List.length_cons]
    rcases ih h with h | h
    · left; omega
    · rcases Memory.mem_writeWord h with h | h
      · left; omega
      · exact .inr h

/-- A word read after a word write, the same address: the word written. -/
theorem Memory.readWord_writeWord_same {m : List Host.Cell} (e : Endian) (a : Nat) (w : Insn) (h : Memory.wf m = true) :
    Memory.readWord e (Memory.writeWord e m a w) a = w := by
  have h1 := Memory.wf_write a (byteOfWord e w 0) h
  have h2 := Memory.wf_write (a + 1) (byteOfWord e w 1) h1
  have h3 := Memory.wf_write (a + 2) (byteOfWord e w 2) h2
  simp [Memory.readWord, Memory.writeWord, Memory.read_write, h, h1, h2, h3, wordOfBytes_byteOfWord]

/-- Outside its four bytes a word write changes no byte. -/
theorem Memory.read_writeWord_other {m : List Host.Cell} (e : Endian) {a x : Nat} (w : Insn) (h : Memory.wf m = true)
    (hx : x < a ∨ a + 4 ≤ x) : Memory.read (Memory.writeWord e m a w) x = Memory.read m x := by
  have h1 := Memory.wf_write a (byteOfWord e w 0) h
  have h2 := Memory.wf_write (a + 1) (byteOfWord e w 1) h1
  have h3 := Memory.wf_write (a + 2) (byteOfWord e w 2) h2
  have n0 : x ≠ a := by omega
  have n1 : x ≠ a + 1 := by omega
  have n2 : x ≠ a + 2 := by omega
  have n3 : x ≠ a + 3 := by omega
  simp [Memory.writeWord, Memory.read_write, h, h1, h2, h3, n0, n1, n2, n3]

/-- Below `a` a text write from `a` on changes no byte. -/
theorem Memory.read_writeText_below {e : Endian} {ws : List Insn} {m : List Host.Cell} {a x : Nat}
    (h : Memory.wf m = true) (hx : x < a) : Memory.read (Memory.writeText e m a ws) x = Memory.read m x := by
  induction ws generalizing m a with
  | nil => rfl
  | cons w ws ih =>
    rw [Memory.writeText, ih (Memory.wf_writeWord e a w h) (by omega), Memory.read_writeWord_other e w h (.inl hx)]

end Sys2Proof.Machine
end

