-- ==== Sys2Proof/Laws/PerInstr.lean ====
section
/-! SUPPORT. Statements made of every instruction as syntax, one lemma per constructor (LAWS.json). -/

namespace Sys2Proof.Laws.ExpansionIsSameWord

/-- An instruction and the core instruction it is a name of have one word, whatever `XO_HI` is (44_pseudo_ops.md R120 to R122). -/
def Statement (i : Instr) : Prop := ∀ x : BitVec 5, encode x i = encode x i.expand

theorem crrweird (rt : GprNum) (bfa : CrfNum) (m : Bool) (mask mode : CrField) (rc : Bool) :
    Statement (.crrweird rt bfa m mask mode rc) := fun _ => rfl

theorem mtcrweird (bf : CrfNum) (ra : GprNum) (m : Bool) (mask mode : CrField) :
    Statement (.mtcrweird bf ra m mask mode) := fun _ => rfl

theorem crweirder (bt : BitVec 5) (bfa : CrfNum) (m : Bool) (mask mode : CrField) :
    Statement (.crweirder bt bfa m mask mode) := fun _ => rfl

theorem crweird (bf bfa : CrfNum) (m : Bool) (mask mode : CrField) : Statement (.crweird bf bfa m mask mode) := fun _ => rfl

theorem mtcri (bf : CrfNum) (mode : CrField) : Statement (.mtcri bf mode) := fun x => by
  apply BitVec.eq_of_getLsbD_eq
  intro i hi
  interval_cases i <;> simp [encode, Instr.expand, cwForm]

theorem mtcrset (bf : CrfNum) (mask : CrField) : Statement (.mtcrset bf mask) := fun x => by
  apply BitVec.eq_of_getLsbD_eq
  intro i hi
  interval_cases i <;> simp [encode, Instr.expand, cwForm]

theorem mtcrclr (bf : CrfNum) (mask : CrField) : Statement (.mtcrclr bf mask) := fun x => by
  apply BitVec.eq_of_getLsbD_eq
  intro i hi
  interval_cases i <;> simp [encode, Instr.expand, cwForm]

end Sys2Proof.Laws.ExpansionIsSameWord
end

