-- ==== Sys2Proof/Laws/State.lean ====
section
/-! SUPPORT. What each register operation does to each field and to each register: no later proof unfolds a record update. -/

namespace Sys2Proof.Machine

section
variable (s : State) (n k : GprNum) (v : Word) (f g : CrfNum) (c : CrField)

@[simp] theorem State.writeGpr_crf : (s.writeGpr n v).crf = s.crf := rfl
@[simp] theorem State.writeGpr_xerSo : (s.writeGpr n v).xerSo = s.xerSo := rfl
@[simp] theorem State.writeGpr_pc : (s.writeGpr n v).pc = s.pc := rfl
@[simp] theorem State.writeGpr_cfg : (s.writeGpr n v).cfg = s.cfg := rfl
@[simp] theorem State.writeGpr_mem : (s.writeGpr n v).mem = s.mem := rfl
@[simp] theorem State.writeCrf_gpr : (s.writeCrf f c).gpr = s.gpr := rfl
@[simp] theorem State.writeCrf_xerSo : (s.writeCrf f c).xerSo = s.xerSo := rfl
@[simp] theorem State.writeCrf_pc : (s.writeCrf f c).pc = s.pc := rfl
@[simp] theorem State.writeCrf_cfg : (s.writeCrf f c).cfg = s.cfg := rfl
@[simp] theorem State.writeCrf_mem : (s.writeCrf f c).mem = s.mem := rfl
@[simp] theorem State.advance_gpr : s.advance.gpr = s.gpr := rfl
@[simp] theorem State.advance_crf : s.advance.crf = s.crf := rfl
@[simp] theorem State.advance_xerSo : s.advance.xerSo = s.xerSo := rfl
@[simp] theorem State.advance_pc : s.advance.pc = s.pc + 4#64 := rfl
@[simp] theorem State.advance_cfg : s.advance.cfg = s.cfg := rfl
@[simp] theorem State.advance_mem : s.advance.mem = s.mem := rfl

@[simp] theorem State.readCrf_writeGpr : (s.writeGpr n v).readCrf f = s.readCrf f := rfl
@[simp] theorem State.readGpr_writeCrf : (s.writeCrf f c).readGpr n = s.readGpr n := rfl
@[simp] theorem State.readGpr_advance : s.advance.readGpr n = s.readGpr n := rfl
@[simp] theorem State.readCrf_advance : s.advance.readCrf f = s.readCrf f := rfl

/-- A general register after a write: the value at the register written, the old value at every other. -/
@[simp] theorem State.readGpr_writeGpr : (s.writeGpr n v).readGpr k = if k = n then v else s.readGpr k := by
  by_cases h : k = n
  · subst h; simp [State.readGpr, State.writeGpr]
  · have h' : n.toNat ≠ k.toNat := fun e => h (BitVec.eq_of_toNat_eq e.symm)
    simp [State.readGpr, State.writeGpr, h, Vector.getElem_set_ne _ _ h']

/-- A CR field after a write: the value at the field written, the old value at every other. -/
@[simp] theorem State.readCrf_writeCrf : (s.writeCrf f c).readCrf g = if g = f then c else s.readCrf g := by
  by_cases h : g = f
  · subst h; simp [State.readCrf, State.writeCrf]
  · have h' : f.toNat ≠ g.toNat := fun e => h (BitVec.eq_of_toNat_eq e.symm)
    simp [State.readCrf, State.writeCrf, h, Vector.getElem_set_ne _ _ h']

@[simp] theorem State.readByte_writeGpr (a : Nat) : (s.writeGpr n v).readByte a = s.readByte a := rfl
@[simp] theorem State.readByte_writeCrf (a : Nat) : (s.writeCrf f c).readByte a = s.readByte a := rfl
@[simp] theorem State.readByte_advance (a : Nat) : s.advance.readByte a = s.readByte a := rfl

end

/-- Two states with equal registers, fields, launch parameters and text are equal. -/
theorem State.ext_read {s t : State} (hg : ∀ n, s.readGpr n = t.readGpr n) (hc : ∀ n, s.readCrf n = t.readCrf n)
    (hx : s.xerSo = t.xerSo) (hp : s.pc = t.pc) (hf : s.cfg = t.cfg) (hm : s.mem = t.mem) : s = t := by
  have e1 : s.gpr = t.gpr := Vector.ext fun i hi => by
    simpa [State.readGpr, Nat.mod_eq_of_lt hi] using hg (BitVec.ofNat 5 i)
  have e2 : s.crf = t.crf := Vector.ext fun i hi => by
    simpa [State.readCrf, Nat.mod_eq_of_lt hi] using hc (BitVec.ofNat 3 i)
  cases s; cases t; simp_all

section
variable {α β : Type}

@[simp] theorem andThen_next (a : α) (k : α → Host.Outcome β Fault Refusal) : andThen (.next a) k = k a := rfl
@[simp] theorem andThen_fault (f : Fault) (k : α → Host.Outcome β Fault Refusal) : andThen (.fault f) k = .fault f := rfl
@[simp] theorem andThen_refused (r : Refusal) (k : α → Host.Outcome β Fault Refusal) :
    andThen (.refused r) k = .refused r := rfl

/-- When a chain answers a next value, its first part did. -/
theorem andThen_eq_next {x : Host.Outcome α Fault Refusal} {k : α → Host.Outcome β Fault Refusal} {b : β}
    (h : andThen x k = .next b) : ∃ a, x = .next a ∧ k a = .next b := by
  cases x with
  | next a => exact ⟨a, rfl, h⟩
  | fault f => cases h
  | refused r => cases h

end

end Sys2Proof.Machine
end

