-- ==== Sys2Proof/Laws/Step.lean ====
section
/-! SUPPORT. What a fetch, an execution and a step can do, each said once. -/

namespace Sys2Proof.Machine

/-- The address lies in the text. -/
theorem State.inText_iff {s : State} {a : Nat} : s.inText a = true ↔ s.cfg.textBase.toNat ≤ a ∧ a < s.textEnd := by
  simp [State.inText]

/-- A fetch that answers a word: `pc` is aligned and in the text, and the word is the one stored there. -/
theorem fetchWord_eq_next {s : State} {w : Insn} (h : fetchWord s = .next w) :
    s.pc.toNat % 4 = 0 ∧ s.inText s.pc.toNat = true ∧ w = Memory.readWord s.cfg.insnEndian s.mem s.pc.toNat := by
  unfold fetchWord at h
  split at h
  · cases h
  · split at h
    · cases h
    · rename_i h4
      split at h
      · rename_i ht
        cases h
        exact ⟨by simpa using h4, ht, rfl⟩
      · cases h

/-- At an aligned address of the text the fetch answers the word stored there. -/
theorem fetchWord_of_inText {s : State} (h4 : s.pc.toNat % 4 = 0) (ht : s.inText s.pc.toNat = true) :
    fetchWord s = .next (Memory.readWord s.cfg.insnEndian s.mem s.pc.toNat) := by
  have hne : s.pc.toNat ≠ s.textEnd := by have := (State.inText_iff.1 ht).2; omega
  simp [fetchWord, hne, h4, ht]

/-- A fetch and decode that answers an instruction. -/
theorem fetchInstr_eq_next {s : State} {i : Instr} (h : fetchInstr s = .next i) :
    ∃ w, fetchWord s = .next w ∧ decodeWord s.cfg.xoHi w = .ok i := by
  obtain ⟨w, hw, hk⟩ := andThen_eq_next h
  refine ⟨w, hw, ?_⟩
  cases hd : decodeWord s.cfg.xoHi w with
  | ok j => rw [hd] at hk; cases hk; rfl
  | error e => rw [hd] at hk; cases hk

/-- A step that answers a next state ran the instruction it fetched. -/
theorem step_eq_next {s t : State} (h : step s = .next t) :
    ∃ w i, fetchWord s = .next w ∧ decodeWord s.cfg.xoHi w = .ok i ∧ exec i s = .next t := by
  obtain ⟨i, hi, hk⟩ := andThen_eq_next h
  obtain ⟨w, hw, hd⟩ := fetchInstr_eq_next hi
  exact ⟨w, i, hw, hd, hk⟩

/-- Everything an instruction can do: one CR field or none, one general register or none, and the program counter. -/
theorem exec_cases (i : Instr) (s : State) :
    (∃ rt v, exec i s = .next (s.writeGpr rt v).advance) ∨
    (∃ rt v c, exec i s = .next ((s.writeGpr rt v).writeCrf 0#3 c).advance) ∨
    (∃ f c, exec i s = .next (s.writeCrf f c).advance) := by
  cases i with
  | crrweird rt bfa m mask mode rc =>
    cases rc
    · exact .inl ⟨_, _, rfl⟩
    · exact .inr (.inl ⟨_, _, _, rfl⟩)
  | mtcrweird bf ra m mask mode => exact .inr (.inr ⟨_, _, rfl⟩)
  | crweirder bt bfa m mask mode => exact .inr (.inr ⟨_, _, rfl⟩)
  | crweird bf bfa m mask mode => exact .inr (.inr ⟨_, _, rfl⟩)
  | mtcri bf mode => exact .inr (.inr ⟨_, _, rfl⟩)
  | mtcrset bf mask => exact .inr (.inr ⟨_, _, rfl⟩)
  | mtcrclr bf mask => exact .inr (.inr ⟨_, _, rfl⟩)

end Sys2Proof.Machine
end

