-- ==== Sys2Proof/Laws/Vectorised.lean ====
section
/-! SUPPORT. What the vectorised loops do to one bit of one register or one field, and when the vectorised forms answer. -/

namespace Sys2Proof.Machine

/-- A list entry after a set, with a default past the end. -/
theorem getD_set {α : Type} (l : List α) (i j : Nat) (v d : α) :
    (l.set i v).getD j d = if j = i ∧ i < l.length then v else l.getD j d := by
  by_cases h : j = i
  · subst h
    by_cases hl : j < l.length <;> simp [hl]
  · simp [Ne.symm h, h]

/-- The bits of `lowBits p`. -/
theorem getLsbD_lowBits {p : Nat} (hp : p ≤ 64) (j : Nat) : (lowBits p).getLsbD j = decide (j < p) := by
  rw [lowBits, BitVec.getLsbD_ushiftRight, BitVec.getLsbD_allOnes]
  congr 1
  exact propext ⟨fun h => by omega, fun h => by omega⟩

/-- The bits of a register with one bit replaced. -/
theorem getLsbD_setLsb0 (v : Word) {j : Nat} (b : Bool) (hj : j < 64) (i : Nat) :
    (setLsb0 v j b).getLsbD i = if i = j then b else v.getLsbD i := by
  by_cases h : i = j
  · subst h
    cases b <;> simp [setLsb0, zext64, hj]
  · have h1 : ∀ x : Word, x = 1#64 ∨ x = 0#64 → (x <<< j).getLsbD i = false := by
      rintro x (rfl | rfl)
      · simp only [BitVec.getLsbD_shiftLeft, BitVec.getLsbD_one]
        rcases Nat.lt_or_ge i j with h | h'
        · simp [h]
        · have : ¬ (i - j = 0) := by omega
          simp [this]
      · simp
    have h2 : (zext64 b <<< j).getLsbD i = false := h1 _ (by cases b <;> simp [zext64])
    rw [if_neg h, setLsb0, BitVec.getLsbD_or, BitVec.getLsbD_and, h2, BitVec.getLsbD_not, h1 1#64 (.inl rfl)]
    by_cases hi : i < 64
    · simp [hi]
    · simp [hi, BitVec.getLsbD_of_ge v i (by omega)]

/-- A pack holds 1, 2, 4 or 8 results, one for each of the four codes. -/
theorem packSize_pos (e : BitVec 2) : 0 < packSize e ∧ packSize e ≤ 8 := by
  revert e; decide

@[simp] theorem length_svWrite (a : SvCrrweird) (g : List Word) (i : Nat) (r : Bool) :
    (svWrite a g i r).length = g.length := by
  unfold svWrite
  split <;> simp

@[simp] theorem length_svLoop (a : SvCrrweird) (f : VecFiles) (n : Nat) : (svLoop a f n).length = f.gpr.length := by
  induction n with
  | zero => rfl
  | succ n ih => simp [svLoop, ih]

@[simp] theorem length_svFields (a : SvMtcrweird) (dm : SvMask) (f : VecFiles) (n : Nat) :
    (svFields a dm f n).length = f.crf.length := by
  induction n with
  | zero => rfl
  | succ n ih => simp [svFields, ih]

/-- `sv.crrweird` uses nothing outside the files: said of each element. -/
theorem SvCrrweird.outside_eq_false {a : SvCrrweird} {f : VecFiles} :
    a.outside f = false ↔ ∀ i, i < a.vl → (if a.bbIsVec then a.bb + i else a.bb) < f.crf.length ∧
      (if a.rtIsVec then a.rt + i / packSize a.bbElwidth else a.rt) < f.gpr.length := by
  have hd : ∀ i, i < a.vl → i / packSize a.bbElwidth ≤ (a.vl - 1) / packSize a.bbElwidth :=
    fun i hi => Nat.div_le_div_right (by omega)
  simp only [SvCrrweird.outside, Bool.and_eq_false_iff, Bool.or_eq_false_iff, decide_eq_false_iff_not]
  generalize packSize a.bbElwidth = p at *
  refine ⟨fun h i hi => ?_, fun h => ?_⟩
  · have := hd i hi
    by_cases hb : a.bbIsVec = true <;> by_cases hr : a.rtIsVec = true <;> simp only [hb, hr] at h ⊢ <;> simp at h ⊢ <;> omega
  · rcases Nat.eq_zero_or_pos a.vl with h0 | h0
    · exact .inl (by omega)
    · have := h (a.vl - 1) (by omega)
      by_cases hb : a.bbIsVec = true <;> by_cases hr : a.rtIsVec = true <;> simp [hb, hr] at this ⊢ <;> omega

/-- `sv.mtcrweird` uses nothing outside the files: said of each element. -/
theorem SvMtcrweird.outside_eq_false {a : SvMtcrweird} {k : SvMask} {f : VecFiles} :
    a.outside k f = false ↔ ∀ i, i < a.vl → a.bf + i < f.crf.length ∧ a.ra < f.gpr.length ∧ k.outside f = false := by
  simp only [SvMtcrweird.outside, Bool.and_eq_false_iff, Bool.or_eq_false_iff, decide_eq_false_iff_not]
  constructor
  · rintro (h | ⟨⟨h1, h2⟩, h3⟩) i hi
    · omega
    · exact ⟨by omega, by omega, h3⟩
  · intro h
    rcases Nat.eq_zero_or_pos a.vl with h0 | h0
    · exact .inl (by omega)
    · obtain ⟨h1, h2, h3⟩ := h (a.vl - 1) (by omega)
      exact .inr ⟨⟨by omega, by omega⟩, h3⟩

/-- The described `sv.crrweird`, condition by condition. -/
theorem SvCrrweird.described_iff {a : SvCrrweird} :
    a.described = true ↔ a.rc = false ∧ a.dm = none ∧ a.sm = none ∧ a.zeroing = false ∧ a.svMode = .normal := by
  simp [SvCrrweird.described, and_assoc]

/-- The described `sv.mtcrweird`, condition by condition (the destination predicate aside). -/
theorem SvMtcrweird.described_iff {a : SvMtcrweird} :
    a.described = true ↔ a.bfIsVec = true ∧ a.bfElwidth = 0b00#2 ∧ a.raIsVec = false ∧ a.raElwidth = .default ∧ a.m = false ∧
      a.sm = none ∧ a.zeroing = true ∧ a.svMode = .normal := by
  simp [SvMtcrweird.described, and_assoc]

/-- When `sv.crrweird` answers, and what. -/
theorem execSvCrrweird_eq_next {draw : Word} {a : SvCrrweird} {f g : VecFiles} :
    execSvCrrweird draw a f = .next g ↔
      a.described = true ∧ f.legal = true ∧ a.rtElwidth = .default ∧ (a.rtIsVec = true ∨ a.vl ≤ 64) ∧ a.outside f = false ∧
      g = VecFiles.mk ((svLoop a f a.vl).set (svOpenReg a)
        (((svLoop a f a.vl).getD (svOpenReg a) 0#64 &&& ~~~svOpenBits a) ||| (draw &&& svOpenBits a))) f.crf := by
  rw [execSvCrrweird, ← Nat.not_lt]
  cases a.described <;> cases f.legal <;> cases a.rtElwidth <;> cases a.rtIsVec <;> cases a.outside f <;>
    by_cases h : 64 < a.vl <;> simp [h, eq_comm]

/-- When `sv.mtcrweird` answers, and what. -/
theorem execSvMtcrweird_eq_next {a : SvMtcrweird} {f g : VecFiles} :
    execSvMtcrweird a f = .next g ↔
      ∃ k, a.described = true ∧ a.dm = some k ∧ f.legal = true ∧ a.vl ≤ 64 ∧ a.outside k f = false ∧
        g = { f with crf := svFields a k f a.vl } := by
  simp only [execSvMtcrweird, ← Nat.not_lt (a := 64)]
  cases a.described <;> cases a.dm with
  | none => simp
  | some k => cases f.legal <;> cases ho : a.outside k f <;> by_cases h : 64 < a.vl <;> simp [h, ho, eq_comm (a := g)]

/-- The CR fields after `n` elements of `sv.mtcrweird`. -/
theorem getD_svFields (a : SvMtcrweird) (k : SvMask) (f : VecFiles) (n : Nat) (h : a.bf + n ≤ f.crf.length) (r : Nat) :
    (svFields a k f n).getD r 0#4 =
      if a.bf ≤ r ∧ r < a.bf + n then svField a k f (r - a.bf) else f.crf.getD r 0#4 := by
  induction n with
  | zero => rw [if_neg (by omega)]; rfl
  | succ n ih =>
    rw [svFields, getD_set, length_svFields, ih (by omega)]
    by_cases hr : r = a.bf + n
    · subst hr
      rw [if_pos ⟨rfl, by omega⟩, if_pos (by omega), Nat.add_sub_cancel_left]
    · rw [if_neg (by omega)]
      congr 1
      exact propext ⟨fun h => by omega, fun h => by omega⟩

/-- One bit of one register after `n` elements of `sv.crrweird` with a vector destination. -/
theorem getLsbD_svLoop_vector {a : SvCrrweird} (hv : a.rtIsVec = true) (f : VecFiles) (n : Nat)
    (hn : ∀ i, i < n → a.rt + i / packSize a.bbElwidth < f.gpr.length) (k j : Nat) :
    ((svLoop a f n).getD (a.rt + k) 0#64).getLsbD j =
      if j < packSize a.bbElwidth ∧ k * packSize a.bbElwidth + j < n then svResult a f (k * packSize a.bbElwidth + j)
      else if k * packSize a.bbElwidth < n ∧ packSize a.bbElwidth ≤ j then false
      else (f.gpr.getD (a.rt + k) 0#64).getLsbD j := by
  have hp := packSize_pos a.bbElwidth
  generalize hpk : packSize a.bbElwidth = p at *
  induction n with
  | zero => rw [if_neg (by omega), if_neg (by omega)]; rfl
  | succ n ih =>
    have ih := ih fun i hi => hn i (by omega)
    have hn' := hn n (by omega)
    have hdm := Nat.div_add_mod' n p
    have hmod := Nat.mod_lt n hp.1
    simp only [svLoop, svWrite, hv, if_true, hpk]
    rw [getD_set, length_svLoop]
    by_cases hk : k = n / p
    · subst hk
      rw [if_pos ⟨rfl, hn'⟩, getLsbD_setLsb0 _ _ (by omega), BitVec.getLsbD_and, getLsbD_lowBits (by omega), ih]
      by_cases hj : j = n % p
      · subst hj
        rw [if_pos rfl, if_pos ⟨hmod, by omega⟩, hdm]
      · rw [if_neg hj]
        by_cases hjp : j < p
        · rw [if_neg (c := _ ∧ p ≤ j) (by omega), if_neg (c := _ ∧ p ≤ j) (by omega), decide_eq_true hjp, Bool.and_true]
          congr 1
          exact propext ⟨fun h => by omega, fun h => by omega⟩
        · rw [if_neg (c := j < p ∧ n / p * p + j < n + 1) (by omega), if_pos (c := n / p * p < n + 1 ∧ p ≤ j) (by omega),
            decide_eq_false hjp, Bool.and_false]
    · have hlt : ∀ m, m < p → (k * p + m < n ↔ k * p + m < n + 1) := by
        intro m hm
        refine ⟨fun h => by omega, fun h => (Nat.lt_succ_iff_lt_or_eq.1 h).resolve_right fun h' => hk ?_⟩
        rw [← h', Nat.mul_comm, Nat.mul_add_div hp.1, Nat.div_eq_of_lt hm, Nat.add_zero]
      have h0 := hlt 0 hp.1
      simp only [Nat.add_zero] at h0
      rw [if_neg (by omega), ih]
      by_cases hjp : j < p
      · have := hlt j hjp
        simp only [this, h0]
      · rw [if_neg (c := j < p ∧ _) (by omega), if_neg (c := j < p ∧ _) (by omega)]
        simp only [h0]

/-- One bit of the destination after `n` elements of `sv.crrweird` with a scalar destination. -/
theorem getLsbD_svLoop_scalar {a : SvCrrweird} (hv : a.rtIsVec = false) (f : VecFiles) (n : Nat)
    (hn : n = 0 ∨ a.rt < f.gpr.length) (h64 : n ≤ 64) (j : Nat) :
    ((svLoop a f n).getD a.rt 0#64).getLsbD j = if j < n then svResult a f j else (f.gpr.getD a.rt 0#64).getLsbD j := by
  induction n with
  | zero => rw [if_neg (by omega)]; rfl
  | succ n ih =>
    simp only [svLoop, svWrite, hv, Bool.false_eq_true, if_false]
    rw [getD_set, length_svLoop, if_pos ⟨rfl, by omega⟩, getLsbD_setLsb0 _ _ (by omega), ih (by omega) (by omega)]
    by_cases hj : j = n
    · subst hj
      rw [if_pos rfl, if_pos (by omega)]
    · rw [if_neg hj]
      congr 1
      exact propext ⟨fun h => by omega, fun h => by omega⟩

/-- A register that no element of `sv.crrweird` writes. -/
theorem getD_svLoop_other {a : SvCrrweird} (f : VecFiles) (n r : Nat)
    (hr : ∀ i, i < n → r ≠ if a.rtIsVec then a.rt + i / packSize a.bbElwidth else a.rt) :
    (svLoop a f n).getD r 0#64 = f.gpr.getD r 0#64 := by
  induction n with
  | zero => rfl
  | succ n ih =>
    have h := hr n (by omega)
    simp only [svLoop, svWrite]
    split <;> rename_i hv
    · rw [if_pos hv] at h
      rw [getD_set, if_neg (fun h' => h h'.1), ih fun i hi => hr i (by omega)]
    · rw [if_neg hv] at h
      rw [getD_set, if_neg (fun h' => h h'.1), ih fun i hi => hr i (by omega)]

end Sys2Proof.Machine
end

