-- ==== Sys2Proof/Tests/Slice0.lean ====
section
/-! SUPPORT. The model's own tests. Expected values come from the spec: 30_encoding.md R75 (words written out by field),
95_test_vectors.md (VC, VM, VW, VX, VP, VD, VF vectors, S2, P1) and 45_vectorised.md section 6. The last part shows, for each
obligation with hypotheses, values that meet them (`witness_<obligation>`). -/

namespace Sys2Proof.Tests

open Sys2Proof.Machine

/-! ## Builders -/

/-- The reset state with these registers. -/
def st (g : List (GprNum × Word)) (c : List (CrfNum × CrField)) (so : Bool) : State :=
  let s := g.foldl (fun s p => s.writeGpr p.1 p.2) State.reset
  { c.foldl (fun s p => s.writeCrf p.1 p.2) s with xerSo := so }

/-- A launch at `0x1000` with `XO_HI = 0` and the registers of a state. -/
def run (e : Endian) (text : List Insn) (s : State) : State := launch 0 e 0x1000 text s.gpr s.crf s.xerSo

/-- The outcome, if it is a next state. -/
def next? {α : Type} : Host.Outcome α Fault Refusal → Option α
  | .next t => some t
  | _ => none

/-- The fault, if it is one. -/
def fault? {α : Type} : Host.Outcome α Fault Refusal → Option Fault
  | .fault f => some f
  | _ => none

/-- The refusal, if it is one. -/
def refusal? {α : Type} : Host.Outcome α Fault Refusal → Option Refusal
  | .refused r => some r
  | _ => none

/-- A general register after an outcome. -/
def gprOf (o : Host.Outcome State Fault Refusal) (n : GprNum) : Option Word := (next? o).map (·.readGpr n)

/-- A CR field after an outcome. -/
def crfOf (o : Host.Outcome State Fault Refusal) (f : CrfNum) : Option CrField := (next? o).map (·.readCrf f)

/-- The instruction of a word, if it is one. -/
def instr? (x : BitVec 5) (w : Insn) : Option Instr :=
  match decodeWord x w with
  | .ok i => some i
  | .error _ => none

/-- Why a word is none. -/
def illegal? (x : BitVec 5) (w : Insn) : Option Illegal :=
  match decodeWord x w with
  | .ok _ => none
  | .error e => some e

/-! ## Decoding: words written out field by field from 30_encoding.md R75 (PO S6 M mask S16 SEL XO_HI 0 mode R) -/

theorem test_decode_crrweird :
    instr? 0b10101 0b010011_10001_1_0110_101_00_10101_0_1001_1 = some (.crrweird 17 5 true 0b0110 0b1001 true) ∧
    instr? 0 0x4C722004 = some (.crrweird 3 1 true 0b0010 0b0010 false) ∧
    instr? 0 0x4C000000 = some (.crrweird 0 0 false 0 0 false) := by decide

theorem test_decode_mtcrweird :
    instr? 0b00001 0b010011_11110_0_1000_110_01_00001_0_0111_0 = some (.mtcrweird 6 30 false 0b1000 0b0111) ∧
    instr? 0 0x4CBC4810 = some (.mtcrweird 2 5 true 0b1100 0b1000) := by decide

theorem test_decode_crweirder :
    instr? 0b11111 0b010011_01110_1_0001_011_10_11111_0_1110_0 = some (.crweirder 0b01110 3 true 0b0001 0b1110) ∧
    instr? 0 0x4F0FF014 = some (.crweirder 0b11000 7 false 0b1111 0b1010) := by decide

theorem test_decode_crweird :
    instr? 0 0b010011_10100_1_0100_010_11_00000_0_1011_0 = some (.crweird 5 2 true 0b0100 0b1011) ∧
    instr? 0 0x4F981810 = some (.crweird 7 0 true 0b1000 0b1000) := by decide

/-- The words of VP1, VP4, VP5: a pseudo-op's word decodes to `mtcrweird` with `RA = 0` (R123). -/
theorem test_decode_pseudo_ops :
    instr? 0 0x4C0F480A = some (.mtcrweird 2 0 false 0b1111 0b0101) ∧
    instr? 0 0x4C16A800 = some (.mtcrweird 5 0 true 0b0110 0b0000) ∧
    instr? 0 0x4C16A81E = some (.mtcrweird 5 0 true 0b0110 0b1111) := by decide

/-- VD4 to VD10 and VD13 to VD16. -/
theorem test_decode_illegal :
    illegal? 0 0x4C722024 = some .reservedBit26 ∧ illegal? 0 0x4C722044 = some .extendedOpcode ∧
    illegal? 0 0x4C0F480B = some .reservedBit31 ∧ illegal? 0 0x4DD29005 = some .reservedBit31 ∧
    illegal? 0 0x4C967809 = some .reservedBit31 ∧ illegal? 0 0x4CB67808 = some .reservedBits9to10 ∧
    illegal? 0 0x4CD67808 = some .reservedBits9to10 ∧ illegal? 0 0x60000000 = some .primaryOpcode ∧
    illegal? 0 0x7C000000 = some .primaryOpcode ∧ illegal? 0 0x00000000 = some .primaryOpcode ∧
    illegal? 0 0xFFFFFFFF = some .primaryOpcode := by decide

/-- The encoder gives the words the spec prints: VC13, VM1, VX1, VW1, VP1, VP4, VP5. -/
theorem test_encode :
    encode 0 (.crrweird 3 1 true 0b0010 0b0010 true) = 0x4C722005 ∧ encode 0 (.mtcrweird 2 5 true 0b1100 0b1000) = 0x4CBC4810 ∧
    encode 0 (.crweirder 0b01110 4 true 0b0010 0b0010) = 0x4DD29004 ∧ encode 0 (.crweird 1 3 true 0b0110 0b0100) = 0x4C967808 ∧
    encode 0 (.mtcri 2 0b1010) = 0x4C0F480A ∧ encode 0 (.mtcrset 5 0b0110) = 0x4C16A800 ∧
    encode 0 (.mtcrclr 5 0b0110) = 0x4C16A81E := by decide

/-- 95_test_vectors.md 3.8: `0x4C722004` in the two byte orders. -/
theorem test_byte_order :
    bytesOfWord .big 0x4C722004 = [0x4C, 0x72, 0x20, 0x04] ∧ bytesOfWord .little 0x4C722004 = [0x04, 0x20, 0x72, 0x4C] := by decide

/-- The host's question, on a word of each row. -/
theorem test_decode_table_word :
    decodeTableWord 32 0x4C000000 = some (.crrweird 0 0 false 0 0 false) ∧
    decodeTableWord 32 0x4C000800 = some (.mtcrweird 0 0 false 0 0) ∧
    decodeTableWord 32 0x4C001000 = some (.crweirder 0 0 false 0 0) ∧
    decodeTableWord 32 0x4C001800 = some (.crweird 0 0 false 0 0) ∧
    decodeTableWord 32 0x4C0F0800 = some (.mtcrweird 0 0 false 0b1111 0) ∧
    decodeTableWord 32 0x00000000 = none := by decide

/-! ## Well-formedness: one ill-formed term for each check, refused -/

/-- The good line each bad one differs from in one operand. -/
theorem test_wellFormed_good :
    (AsmLine.mk .crrweird [.reg 31, .crf 7, .num 1, .pair 15 15]).wellFormed = true ∧
    (AsmLine.mk .mtcrweird [.num 7, .num 0, .num 0, .pair 15 15]).wellFormed = true ∧
    (AsmLine.mk .crweirder [.num 31, .num 7, .num 1, .pair 0 0]).wellFormed = true ∧
    (AsmLine.mk .mtcri [.crf 7, .num 15]).wellFormed = true := by decide

theorem test_illFormed_register : (AsmLine.mk .crrweird [.reg 32, .crf 7, .num 1, .pair 15 15]).wellFormed = false := by decide

theorem test_illFormed_ra_number : (AsmLine.mk .mtcrweird [.num 7, .num 1, .num 0, .pair 15 15]).wellFormed = false := by decide

theorem test_illFormed_ra_register : (AsmLine.mk .mtcrweird [.num 7, .reg 32, .num 0, .pair 15 15]).wellFormed = false := by decide

theorem test_illFormed_field : (AsmLine.mk .crweird [.num 7, .num 8, .num 1, .pair 15 15]).wellFormed = false ∧
    (AsmLine.mk .crweird [.crf 8, .num 7, .num 1, .pair 15 15]).wellFormed = false := by decide

theorem test_illFormed_bt : (AsmLine.mk .crweirder [.num 32, .num 7, .num 1, .pair 0 0]).wellFormed = false := by decide

theorem test_illFormed_m : (AsmLine.mk .crweirder [.num 31, .num 7, .num 2, .pair 0 0]).wellFormed = false := by decide

theorem test_illFormed_mask : (AsmLine.mk .crrweirdDot [.reg 31, .crf 7, .num 1, .pair 16 15]).wellFormed = false := by decide

theorem test_illFormed_mode : (AsmLine.mk .crrweirdDot [.reg 31, .crf 7, .num 1, .pair 15 16]).wellFormed = false := by decide

theorem test_illFormed_nibble : (AsmLine.mk .mtcri [.crf 7, .num 16]).wellFormed = false ∧
    (AsmLine.mk .mtcrset [.crf 7, .num 16]).wellFormed = false ∧
    (AsmLine.mk .mtcrclr [.crf 7, .num 16]).wellFormed = false := by decide

/-- S2's operand list: three operands where `mtcrweird` has four. -/
theorem test_illFormed_count : (AsmLine.mk .mtcrweird [.crf 7, .num 0, .pair 3 0]).wellFormed = false := by decide

theorem test_illFormed_kind : (AsmLine.mk .crrweird [.num 3, .crf 7, .num 1, .pair 15 15]).wellFormed = false := by decide

/-- `mtcrweird 5, r7, 0, 0b1111.0b1111` of P2 and `mtcri 2, 0b1010` of VP1: `BF` comes first in the line and later in the word. -/
theorem test_assemble :
    (assemble ⟨.mtcrweird, [.num 5, .reg 7, .num 0, .pair 15 15]⟩).map (encode 0) = some 0x4CEFA81E ∧
    (assemble ⟨.mtcri, [.num 2, .num 10]⟩).map (encode 0) = some 0x4C0F480A := by decide

/-! ## One step of each instruction -/

/-- VC4, VC8, VC9. -/
theorem test_crrweird :
    gprOf (exec (.crrweird 3 1 true 0b1010 0b1000 false) (st [(3, 0xFFFFFFFFFFFFFFFF)] [(1, 0b0101)] true)) 3 = some 1 ∧
    gprOf (exec (.crrweird 3 1 false 0b1010 0b1010 false) (st [(3, 0xFFFFFFFFFFFFFFFF)] [(1, 0b1010)] true)) 3 = some 0 ∧
    gprOf (exec (.crrweird 3 1 true 0b0000 0b1111 false) (st [(3, 0xFFFFFFFFFFFFFFFF)] [(1, 0b1111)] true)) 3 = some 0 := by decide

/-- VC17 and VC18: the record form with `CRF[0]` as its source. -/
theorem test_crrweird_record :
    crfOf (exec (.crrweird 4 0 true 0b0010 0b0010 true) (st [] [(0, 0b0010)] false)) 0 = some 0b0100 ∧
    gprOf (exec (.crrweird 4 0 true 0b0010 0b0010 true) (st [(4, 9)] [(0, 0b1000)] true)) 4 = some 0 ∧
    crfOf (exec (.crrweird 4 0 true 0b0010 0b0010 true) (st [(4, 9)] [(0, 0b1000)] true)) 0 = some 0b0011 := by decide

/-- VM1, VM4, VM8, VM12. -/
theorem test_mtcrweird :
    crfOf (exec (.mtcrweird 2 5 true 0b1100 0b1000) (st [(5, 3)] [(2, 0b0101)] false)) 2 = some 0b1001 ∧
    crfOf (exec (.mtcrweird 2 5 false 0b1100 0b1000) (st [(5, 2)] [(2, 0b0101)] false)) 2 = some 0b0100 ∧
    crfOf (exec (.mtcrweird 2 5 true 0b1111 0b1111) (st [(5, 0xFFFFFFFFFFFFFFFE)] [(2, 0b1001)] false)) 2 = some 0b0000 ∧
    crfOf (exec (.mtcrweird 2 5 false 0b1111 0b1111) (st [(5, 0x8000000000000000)] [] false)) 2 = some 0b0000 := by decide

/-- VM13: `RA = 0` with `GPR[0]` all ones. -/
theorem test_mtcrweird_ra_zero :
    crfOf (exec (.mtcrweird 2 0 true 0b0011 0b0000) (st [(0, 0xFFFFFFFFFFFFFFFF)] [(2, 0b1010)] false)) 2 = some 0b1011 := by decide

/-- VW1, VW2, VW6. -/
theorem test_crweird :
    crfOf (exec (.crweird 1 3 true 0b0110 0b0100) (st [] [(3, 0b0110), (1, 0b1001)] false)) 1 = some 0b1101 ∧
    crfOf (exec (.crweird 1 3 false 0b0110 0b0100) (st [] [(3, 0b0110), (1, 0b1001)] false)) 1 = some 0b0100 ∧
    crfOf (exec (.crweird 1 3 false 0b0000 0b0101) (st [] [(3, 0b0110), (1, 0b1001)] false)) 1 = some 0b0000 := by decide

/-- VW8: `BF = BFA`. -/
theorem test_crweird_in_place :
    crfOf (exec (.crweird 2 2 false 0b1111 0b0000) (st [] [(2, 0b0110)] false)) 2 = some 0b1001 := by decide

/-- VX2, VX3, VX6, VX9. -/
theorem test_crweirder :
    crfOf (exec (.crweirder 0b01110 4 true 0b0010 0b0000) (st [] [(4, 0b0010), (6, 0b1111)] false)) 6 = some 0b1011 ∧
    crfOf (exec (.crweirder 0b00110 4 true 0b0010 0b0010) (st [] [(4, 0b0010)] false)) 6 = some 0b1000 ∧
    crfOf (exec (.crweirder 0b11110 4 true 0b0010 0b0010) (st [] [(4, 0b0010)] false)) 6 = some 0b0001 ∧
    crfOf (exec (.crweirder 0b11000 7 false 0b1010 0b1010) (st [] [(7, 0b1010), (0, 0b0001)] false)) 0 = some 0b0000 := by decide

/-- VX12: `BF = BFA`. -/
theorem test_crweirder_in_place :
    crfOf (exec (.crweirder 0b10011 3 true 0b0010 0b0000) (st [] [(3, 0b0010)] false)) 3 = some 0b0000 := by decide

/-- VP1, VP2. -/
theorem test_mtcri :
    crfOf (exec (.mtcri 2 0b1010) (st [(0, 0xFFFFFFFFFFFFFFFF)] [(2, 0b0101)] false)) 2 = some 0b1010 ∧
    crfOf (exec (.mtcri 7 0b0000) (st [] [(7, 0b1111)] false)) 7 = some 0b0000 := by decide

/-- VP4, VP6. -/
theorem test_mtcrset :
    crfOf (exec (.mtcrset 5 0b0110) (st [] [(5, 0b0101)] false)) 5 = some 0b0111 ∧
    crfOf (exec (.mtcrset 5 0b0000) (st [] [(5, 0b1001)] false)) 5 = some 0b1001 := by decide

/-- VP5, VM7. -/
theorem test_mtcrclr :
    crfOf (exec (.mtcrclr 5 0b0110) (st [] [(5, 0b0111)] false)) 5 = some 0b0001 ∧
    crfOf (exec (.mtcrclr 2 0b0110) (st [(0, 0xFFFFFFFFFFFFFFFF)] [(2, 0b1111)] false)) 2 = some 0b1001 := by decide

/-- The view of 10_state.md R24: `CRF[0]` leftmost, `CRF[7]` rightmost. -/
theorem test_cr_view : (st [] [(0, 0b1000), (7, 0b0011)] false).cr = 0x80000003 := by decide

/-! ## Fetch, end of run, faults (95_test_vectors.md 3.8) -/

/-- The three words of P1. -/
def p1 : List Insn := [0x4C0F480A, 0x4C784010, 0x4C8F4015]

/-- P1 at `0x1000`, with `pc` at `a`. -/
def p1At (e : Endian) (a : Word) : State := { run e p1 State.reset with pc := a }

/-- VF1, in both byte orders. -/
theorem test_step_fetches :
    crfOf (step (p1At .big 0x1000)) 2 = some 0b1010 ∧ crfOf (step (p1At .little 0x1000)) 2 = some 0b1010 ∧
    (next? (step (p1At .big 0x1000))).map (·.pc) = some 0x1004 := by decide

/-- VF3. -/
theorem test_step_end_of_run : refusal? (step (p1At .big 0x100C)) = some .endOfRun := by decide

/-- VF4, VF5. -/
theorem test_step_fetch_faults :
    fault? (step (p1At .big 0x1002)) = some (.fetchFault 0x1002) ∧ fault? (step (p1At .big 0x0FFC)) = some (.fetchFault 0x0FFC) ∧
    fault? (step (p1At .big 0x1010)) = some (.fetchFault 0x1010) := by decide

/-- P5 and VF6: a reserved bit. -/
def p5 : List Insn := [0x4C0F2800, 0x4C11281F, 0x4C7F201E]

theorem test_step_illegal :
    fault? (step { run .big p5 State.reset with pc := 0x1004 }) = some (.illegalInstruction 0x1004 0x4C11281F) := by decide

/-- Reset runs no program; a word placed there is the next one run (log 3, log 23). -/
theorem test_reset_step : refusal? (step State.reset) = some .endOfRun ∧
    crfOf (step (State.reset.withFetchWord 32 0x4C0F480A)) 2 = some 0b1010 ∧
    fault? (step (State.reset.withFetchWord 32 0)) = some (.illegalInstruction 0 0) := by decide

/-! ## Vectorised forms: 45_vectorised.md section 6 and S2 -/

/-- `M = 1`, mask and mode `0b0010`, `BB = 0` a vector, `VL = 4`. -/
def sv6 (rt : Nat) (vec : Bool) (w : BitVec 2) : SvCrrweird :=
  { rt := rt, rtIsVec := vec, rtElwidth := .default, bb := 0, bbIsVec := true, bbElwidth := w, m := true,
    mask := 0b0010, mode := 0b0010, rc := false, vl := 4,
    dm := none, sm := none, zeroing := false, svMode := .normal }

/-- The CR fields of section 6 with four more, and general registers of all ones. -/
def files6 : VecFiles :=
  { gpr := List.replicate 32 0xFFFFFFFFFFFFFFFF, crf := [0b0010, 0b0100, 0b0010, 0b1000, 0, 0, 0, 0] }

/-- Registers 8 to 11 after `sv6`. -/
def regs6 (draw : Word) (w : BitVec 2) : Option (List Word) :=
  (next? (execSv draw (.crrweird (sv6 8 true w)) files6)).map fun g => (g.gpr.drop 8).take 4

theorem test_sv_crrweird_vector :
    regs6 0 0b00 = some [1, 0, 1, 0] ∧ regs6 0 0b01 = some [1, 1, 0xFFFFFFFFFFFFFFFF, 0xFFFFFFFFFFFFFFFF] ∧
    (regs6 0 0b10).map (·.head?) = some (some 5) ∧ (regs6 0xFFFFFFFFFFFFFFFF 0b11).map (·.head?) = some (some 0xF5) := by decide

theorem test_sv_crrweird_scalar :
    (next? (execSv 0x30 (.crrweird (sv6 3 false 0)) files6)).map (fun g => g.gpr[3]?) = some (some 0x35) := by decide

/-- S2, read with `M = 0` and `VL = 2`. -/
def svS2 : SvMtcrweird :=
  { bf := 8, bfIsVec := true, bfElwidth := 0b00, ra := 0, raIsVec := false, raElwidth := .default, m := false, mask := 0b0011, mode := 0b0000,
    dm := some (.gpr 10 false), sm := none, zeroing := true, svMode := .normal, vl := 2 }

/-- `r10 = 0b00010`; ten CR fields of all ones. -/
def filesS2 : VecFiles := { gpr := (List.replicate 32 0xFFFFFFFFFFFFFFFF).set 10 0b00010, crf := List.replicate 10 0b1111 }

theorem test_sv_mtcrweird_S2 :
    (next? (execSv 0 (.mtcrweird svS2) filesS2)).map (fun g => g.crf.drop 8) = some [0b0000, 0b0011] := by decide

/-- S2 with its predicate given as a CR-vector, and inverted (10_state.md R29). -/
theorem test_sv_mtcrweird_masks :
    (next? (execSv 0 (.mtcrweird { svS2 with dm := some (.crVector 0b10 false) }) filesS2)).map (fun g => g.crf.drop 8) =
      some [0b0000, 0b0011] ∧
    (next? (execSv 0 (.mtcrweird { svS2 with dm := some (.gpr 10 true) }) filesS2)).map (fun g => g.crf.drop 8) =
      some [0b0011, 0b0000] := by decide

theorem test_sv_refusals :
    refusal? (execSv 0 .crweirder files6) = some (.svNotDescribed "sv.crweirder") ∧
    refusal? (execSv 0 (.crrweird { sv6 8 true 0 with rtElwidth := .w8 }) files6) = some .svDestElwidth ∧
    refusal? (execSv 0 (.crrweird (sv6 29 true 0)) files6) = some .svIndexOutsideFile ∧
    refusal? (execSv 0 (.crrweird (sv6 3 true 0)) { files6 with crf := files6.crf.take 7 }) = some .svFilesTooSmall ∧
    refusal? (execSv 0 (.crrweird { sv6 3 false 0 with vl := 65 }) files6) = some .svVectorTooLong ∧
    refusal? (execSv 0 (.crrweird { sv6 8 true 0 with dm := some (.gpr 10 false) }) files6) = some (.svNotDescribed "sv.crrweird") ∧
    refusal? (execSv 0 (.mtcrweird { svS2 with m := true }) filesS2) = some (.svNotDescribed "sv.mtcrweird") ∧
    refusal? (execSv 0 (.mtcrweird { svS2 with bfElwidth := 0b01 }) filesS2) = some (.svNotDescribed "sv.mtcrweird") := by decide

/-! ## Witnesses: values that meet the hypotheses of each obligation that has some -/

/-- Each of the four instructions is the decoding of some word: with it the hypotheses of `EncodeOfDecodeIsTheWord`,
`SelectorBitsNameTheInstruction`, `MaskModeAndFieldStandInTheirBits` and the last clause of `MSelectsReductionOrUpdate`. -/
theorem witness_EncodeOfDecodeIsTheWord : decodeWord 0 0x4C722005 = .ok (.crrweird 3 1 true 0b0010 0b0010 true) := by rfl

theorem witness_SelectorBitsNameTheInstruction :
    decodeWord 0 0x4C722005 = .ok (.crrweird 3 1 true 0b0010 0b0010 true) ∧
    decodeWord 0 0x4CEFA81E = .ok (.mtcrweird 5 7 false 0b1111 0b1111) ∧
    decodeWord 0 0x4DD29004 = .ok (.crweirder 0b01110 4 true 0b0010 0b0010) ∧
    decodeWord 0 0x4C967808 = .ok (.crweird 1 3 true 0b0110 0b0100) := ⟨rfl, rfl, rfl, rfl⟩

theorem witness_MaskModeAndFieldStandInTheirBits :
    (∃ rt m rc, decodeWord 0 0x4C722005 = .ok (.crrweird rt 1 m 0b0010 0b0010 rc)) ∧
    (∃ ra m, decodeWord 0 0x4CEFA81E = .ok (.mtcrweird 5 ra m 0b1111 0b1111)) ∧
    (∃ bt m, decodeWord 0 0x4DD29004 = .ok (.crweirder bt 4 m 0b0010 0b0010)) ∧
    (∃ bf m, decodeWord 0 0x4C967808 = .ok (.crweird bf 3 m 0b0110 0b0100)) :=
  ⟨⟨3, true, true, rfl⟩, ⟨7, false, rfl⟩, ⟨0b01110, true, rfl⟩, ⟨1, true, rfl⟩⟩

/-- Each instruction with its slot `S6` and `Rc` at the top of their range. -/
theorem witness_SlotS6AndRcStandInTheirBits :
    decodeWord 0 0x4FE00001 = .ok (.crrweird 31 0 false 0 0 true) ∧ decodeWord 0 0x4FE00800 = .ok (.mtcrweird 0 31 false 0 0) ∧
    decodeWord 0 0x4FE01000 = .ok (.crweirder 31 0 false 0 0) ∧ decodeWord 0 0x4F801800 = .ok (.crweird 7 0 false 0 0) :=
  ⟨rfl, rfl, rfl, rfl⟩

/-- One word for each of the three clauses (VD4, VD6, VD9 and VD10). -/
theorem witness_ReservedBitsMakeAWordIllegal :
    bitAt (0x4C722024 : Insn) 26 = true ∧
    (bitAt (0x4C0F480B : Insn) 31 = true ∧ (0x4C0F480B : Insn).toNat / 2 ^ 11 % 4 ≠ 0) ∧
    ((0x4CB67808 : Insn).toNat / 2 ^ 21 % 4 ≠ 0 ∧ (0x4CB67808 : Insn).toNat / 2 ^ 11 % 4 = 3) ∧
    ((0x4CD67808 : Insn).toNat / 2 ^ 21 % 4 ≠ 0 ∧ (0x4CD67808 : Insn).toNat / 2 ^ 11 % 4 = 3) := by decide

/-- One word for each of the two clauses (VD13, VD5). -/
theorem witness_OtherOpcodesAreIllegal :
    (0x60000000 : Insn).toNat / 2 ^ 26 ≠ 19 ∧ (0x4C722044 : Insn).toNat / 2 ^ 6 % 32 ≠ (0 : BitVec 5).toNat := by decide

theorem witness_EveryInstructionIsFourBytes :
    decode Config.atReset [0x4C, 0x72, 0x20, 0x04, 0xAA] = .ok (.crrweird 3 1 true 0b0010 0b0010 false, [0xAA]) := by rfl

/-- P1 in both byte orders, at its first and its last word. -/
theorem witness_StepRunsTheDecodedInstruction :
    (p1At .big 0x1000).pc.toNat % 4 = 0 ∧ (p1At .big 0x1000).inText 0x1000 = true ∧
    (p1At .little 0x1008).pc.toNat % 4 = 0 ∧ (p1At .little 0x1008).inText 0x1008 = true ∧
    decode (p1At .big 0x1000).cfg [Memory.read (p1At .big 0x1000).mem 0x1000, Memory.read (p1At .big 0x1000).mem 0x1001,
      Memory.read (p1At .big 0x1000).mem 0x1002, Memory.read (p1At .big 0x1000).mem 0x1003] =
        .ok (.mtcrweird 2 0 false 0b1111 0b0101, []) ∧
    decode (p1At .little 0x1008).cfg [Memory.read (p1At .little 0x1008).mem 0x1008, Memory.read (p1At .little 0x1008).mem 0x1009,
      Memory.read (p1At .little 0x1008).mem 0x100A, Memory.read (p1At .little 0x1008).mem 0x100B] =
        .ok (.crrweird 4 2 false 0b1111 0b1010 true, []) := by
  refine ⟨?_, ?_, ?_, ?_, rfl, rfl⟩ <;> decide

theorem witness_FetchAssemblesTheBytesInOrder :
    LegalConfig (p1At .big 0x1004).cfg ∧ next? (fetchWord (p1At .big 0x1004)) = some 0x4C784010 ∧
    LegalConfig (p1At .little 0x1004).cfg ∧ next? (fetchWord (p1At .little 0x1004)) = some 0x4C784010 := by decide

theorem witness_InstructionsDoNotTouchMemory : ∃ t, exec (.mtcri 2 0b1010) (p1At .big 0x1000) = .next t := ⟨_, rfl⟩

theorem witness_CrrweirdTestsOneBit : 0 < 4 ∧ 3 < 4 := by decide

theorem witness_RaFieldZeroIsTheConstantZero :
    (∃ t, exec (.mtcrweird 2 0 false 0b1111 0b1010) (p1At .big 0x1000) = .next t) ∧
    (∃ t, exec (.mtcrweird 2 7 false 0b1111 0b1010) (p1At .big 0x1000) = .next t) ∧
    (assemble ⟨.mtcrweird, [.num 2, .reg 0, .num 1, .pair 3 0]⟩).isSome = true ∧
    (assemble ⟨.mtcrweird, [.num 2, .num 0, .num 1, .pair 3 0]⟩).isSome = true := ⟨⟨_, rfl⟩, ⟨_, rfl⟩, rfl, rfl⟩

theorem witness_MtcrweirdUsesOnlyTheLowBit :
    (0xFFFFFFFFFFFFFFFF : Word).toNat % 2 = ((st [(5, 3)] [] false).readGpr 5).toNat % 2 ∧
    ∃ t, exec (.mtcrweird 2 5 true 0b1100 0b1000) (st [(5, 3)] [] false) = .next t := ⟨by decide, _, rfl⟩

theorem witness_CrweirdClosedForm : (15#4 = 0b1111#4) ∧ (0#4 = 0b0000#4) := by decide

/-- `BT = 14` is bit 1 of field 6. -/
theorem witness_CrweirderSetsOneBit : (6 : CrfNum).toNat = (0b01110 : BitVec 5).toNat % 8 ∧ 1 = (0b01110 : BitVec 5).toNat / 8 := by
  decide

theorem witness_MSelectsReductionOrUpdate :
    bitAt (0b1110 : CrField) 3 = false ∧ bitAt (0b0111 : CrField) 0 = false ∧
    (∃ rt bfa mask mode rc, decodeWord 0 0x4C722005 = .ok (.crrweird rt bfa true mask mode rc)) ∧
    (∃ bf ra mask mode, decodeWord 0 0x4CEFA81E = .ok (.mtcrweird bf ra false mask mode)) ∧
    (∃ bt bfa mask mode, decodeWord 0 0x4DD29004 = .ok (.crweirder bt bfa true mask mode)) ∧
    (∃ bf bfa mask mode, decodeWord 0 0x4C967808 = .ok (.crweird bf bfa true mask mode)) :=
  ⟨rfl, rfl, ⟨_, _, _, _, _, rfl⟩, ⟨_, _, _, _, rfl⟩, ⟨_, _, _, _, rfl⟩, ⟨_, _, _, _, rfl⟩⟩

/-- Each of the six forms answers a next state; `BT = 14` writes field 6. -/
theorem witness_CrWritersChangeOneField :
    (∃ t, exec (.mtcrweird 2 5 true 0b1100 0b1000) (st [(5, 3)] [] false) = .next t) ∧
    (∃ t, exec (.crweird 2 2 false 0b1111 0b0000) (st [] [] false) = .next t) ∧
    (∃ t, exec (.mtcri 2 0b1010) (st [] [] false) = .next t) ∧ (∃ t, exec (.mtcrset 2 0b1010) (st [] [] false) = .next t) ∧
    (∃ t, exec (.mtcrclr 2 0b1010) (st [] [] false) = .next t) ∧ (6 : CrfNum).toNat = (0b01110 : BitVec 5).toNat % 8 ∧
    (∃ t, exec (.crweirder 0b01110 4 true 0b0010 0b0010) (st [] [] false) = .next t) :=
  ⟨⟨_, rfl⟩, ⟨_, rfl⟩, ⟨_, rfl⟩, ⟨_, rfl⟩, ⟨_, rfl⟩, rfl, ⟨_, rfl⟩⟩

theorem witness_CrrweirdChangesOneRegister :
    (∃ t, exec (.crrweird 4 0 true 0b0010 0b0010 true) (st [] [] false) = .next t) ∧
    (∃ t, exec (.crrweird 4 0 true 0b0010 0b0010 false) (st [] [] false) = .next t) := ⟨⟨_, rfl⟩, ⟨_, rfl⟩⟩

/-- Two states that differ everywhere but in what `crweird 1, 3, 0` reads. -/
theorem witness_ReadAndWriteSets :
    (∃ t, exec (.crweird 1 3 false 0b0110 0b0100) (st [(1, 5)] [(3, 0b0110), (1, 0b1111)] true) = .next t) ∧
    (∃ t, exec (.crweird 1 3 false 0b0110 0b0100) (st [(1, 6)] [(3, 0b0110), (1, 0b0001)] false) = .next t) ∧
    AgreeOnReads (.crweird 1 3 false 0b0110 0b0100) (st [(1, 5)] [(3, 0b0110), (1, 0b1111)] true)
      (st [(1, 6)] [(3, 0b0110), (1, 0b0001)] false) :=
  ⟨⟨_, rfl⟩, ⟨_, rfl⟩, ⟨by decide, by decide, by decide⟩⟩

/-- The second step of P1 changes `GPR[3]`. -/
theorem witness_OnlyCrrweirdChangesARegister :
    gprOf (step { run .big p1 (st [] [(2, 0b1010)] false) with pc := 0x1004 }) 3 = some 1 ∧
    (run .big p1 (st [] [(2, 0b1010)] false)).readGpr 3 = 0 := by decide

theorem witness_AStepChangesAtMostOneField : ∃ t, step (p1At .big 0x1000) = .next t := ⟨_, rfl⟩

/-- P1 at any of its words or at its end is well-formed. -/
theorem wf_p1At (e : Endian) {a : Word} (ha : a = 0x1000 ∨ a = 0x1004 ∨ a = 0x1008 ∨ a = 0x100C) : (p1At e a).Wf := by
  rcases ha with rfl | rfl | rfl | rfl <;> cases e <;> exact ⟨by decide, by decide, by decide, by decide, by decide, by decide⟩

theorem witness_StepKeepsWellFormedness : (p1At .little 0x1000).Wf ∧ ∃ t, step (p1At .little 0x1000) = .next t :=
  ⟨wf_p1At _ (.inl rfl), _, rfl⟩

theorem witness_StepsKeepParametersAndText : ∃ t, reaches 3 (p1At .big 0x1000) t :=
  ⟨_, _, rfl, _, rfl, _, rfl, rfl⟩

theorem witness_LaunchPlacesTheText :
    (0x1000 : Word).toNat % 4 = 0 ∧ (0x1000 : Word).toNat + 4 * p1.length < 2 ^ 64 ∧ 2 < p1.length := by decide

theorem witness_NoFetchFaultInARun : (p1At .big 0x1000).Wf ∧ ∃ t, reaches 3 (p1At .big 0x1000) t :=
  ⟨wf_p1At _ (.inl rfl), witness_StepsKeepParametersAndText⟩

theorem witness_RunsTerminate :
    (p1At .big 0x1000).Wf ∧ (p1At .big 0x1000).wordsLeft = 3 ∧ (∃ t, reaches 3 (p1At .big 0x1000) t) ∧
    (p1At .big 0x100C).Wf ∧ (p1At .big 0x100C).wordsLeft = 0 :=
  ⟨wf_p1At _ (.inl rfl), by decide, witness_StepsKeepParametersAndText, wf_p1At _ (.inr (.inr (.inr rfl))), by decide⟩

theorem witness_LegalTextRunsToItsEnd : (p1At .big 0x1000).Wf ∧ (p1At .big 0x1000).LegalAhead := by
  refine ⟨wf_p1At _ (.inl rfl), fun k hk => ?_⟩
  have h3 : (p1At .big 0x1000).wordsLeft = 3 := by decide
  rw [h3] at hk
  interval_cases k <;> decide

/-- P5: its second word is the first illegal one. -/
theorem witness_FirstIllegalWordStopsTheRun :
    (run .big p5 State.reset).Wf ∧ 1 < (run .big p5 State.reset).wordsLeft ∧
    legalWord 0 ((run .big p5 State.reset).wordAhead 0) = true ∧ legalWord 0 ((run .big p5 State.reset).wordAhead 1) = false :=
  ⟨⟨by decide, by decide, by decide, by decide, by decide, by decide⟩, by decide, by decide, by decide⟩

theorem witness_RegisterBitRoundTrip : (7 : GprNum) ≠ 0#5 := by decide

/-- Two orders of writing that give one memory. -/
theorem witness_CanonicalMemoryIsUnique :
    Memory.wf (Memory.write (Memory.write [] 3 1) 1 2) = true ∧ Memory.wf (Memory.write (Memory.write [] 1 2) 3 1) = true ∧
    ∀ a, Memory.read (Memory.write (Memory.write [] 3 1) 1 2) a = Memory.read (Memory.write (Memory.write [] 1 2) 3 1) a :=
  ⟨rfl, rfl, fun _ => rfl⟩

/-- Inside the text (P1) and outside it (reset). -/
theorem witness_PlacedWordIsFetched :
    Memory.wf (p1At .big 0x1004).mem = true ∧ (p1At .big 0x1004).inText 0x1004 = true ∧ (0x1004 : Word).toNat % 4 = 0 ∧
    Memory.wf State.reset.mem = true ∧ State.reset.inText State.reset.pc.toNat = false ∧ 0x4C0F480A < 2 ^ 32 := by decide

/-- The operands at the top of their ranges, and at the bottom. -/
theorem witness_OperandsFillTheirFields :
    (31 < 32 ∧ 7 < 8 ∧ 1 < 2 ∧ 15 < 16 ∧ 0 < 32 ∧ 0 < 8 ∧ 0 < 2 ∧ 0 < 16) ∧ (Operand.crf = .num ∨ Operand.crf = .crf) ∧
    (Operand.num = .num ∨ Operand.num = .crf) := ⟨by decide, .inr rfl, .inl rfl⟩

theorem witness_PseudoOpLinesAssembleAsTheirExpansions : 7 < 8 ∧ 15 < 16 := by decide

theorem witness_VectorDestinationPacksResults :
    (sv6 8 true 0b01).rtIsVec = true ∧ ∃ g, execSv 0 (.crrweird (sv6 8 true 0b01)) files6 = .next g := ⟨rfl, _, rfl⟩

theorem witness_ScalarDestinationCollectsBits :
    (sv6 3 false 0).rtIsVec = false ∧ ∃ g, execSv 0x30 (.crrweird (sv6 3 false 0)) files6 = .next g := ⟨rfl, _, rfl⟩

/-- One element of `sv6`, into the last general register from the last CR field. -/
def svOne : SvCrrweird := { sv6 31 true 0 with vl := 1, bb := 7 }

theorem witness_OneElementIsTheScalarInstruction :
    svOne.described = true ∧ svOne.rtIsVec = true ∧ svOne.rtElwidth = .default ∧ svOne.bbElwidth = 0#2 ∧ svOne.vl = 1 ∧
    svOne.rt = (31 : GprNum).toNat ∧ svOne.bb = (7 : CrfNum).toNat ∧
    ∃ t, exec (.crrweird 31 7 svOne.m svOne.mask svOne.mode false) (st [] [(7, 0b0010)] false) = .next t :=
  ⟨rfl, rfl, rfl, rfl, rfl, rfl, rfl, _, rfl⟩

/-- S2 ends at the last of ten CR fields; its mask as a register and as a CR-vector. -/
theorem witness_PredicatedMtcrweirdFields :
    svS2.described = true ∧ (svS2.dm = some (.gpr 10 false) ∧ 10 < filesS2.gpr.length ∧ 0b00010 = filesS2.gpr.getD 10 0#64) ∧
    ({ svS2 with dm := some (.crVector 0b10 true) } : SvMtcrweird).dm = some (.crVector 0b10 true) ∧
    ({ svS2 with dm := some (.crVector 0b10 true) } : SvMtcrweird).described = true ∧
    8 ≤ filesS2.crf.length ∧ 32 ≤ filesS2.gpr.length ∧ svS2.vl ≤ 64 ∧ svS2.bf + svS2.vl ≤ filesS2.crf.length ∧
    svS2.ra < filesS2.gpr.length := by decide

/-- One form for each clause; of an index outside a file, the first element whose index is outside (the first of the numbers is
inside): fields 5 to 8 of 8, registers 29 to 32 of 32, fields 9 and 10 of 10. -/
theorem witness_UndescribedVectorFormsAreRefused :
    ({ svS2 with bfIsVec := false } : SvMtcrweird).bfIsVec = false ∧ ({ svS2 with bfElwidth := 1 } : SvMtcrweird).bfElwidth ≠ 0b00#2 ∧
    ({ svS2 with raIsVec := true } : SvMtcrweird).raIsVec = true ∧ ({ svS2 with raElwidth := .w8 } : SvMtcrweird).raElwidth ≠ .default ∧
    ({ svS2 with m := true } : SvMtcrweird).m = true ∧ ({ svS2 with sm := some (.gpr 3 true) } : SvMtcrweird).sm ≠ none ∧
    ({ svS2 with zeroing := false } : SvMtcrweird).zeroing = false ∧
    ({ svS2 with svMode := .predicateResult } : SvMtcrweird).svMode ≠ .normal ∧ ({ svS2 with dm := none } : SvMtcrweird).dm = none ∧
    ({ sv6 3 false 0 with rc := true } : SvCrrweird).rc = true ∧
    ({ sv6 3 false 0 with dm := some (.crVector 1 false) } : SvCrrweird).dm ≠ none ∧
    ({ sv6 3 false 0 with sm := some (.gpr 3 true) } : SvCrrweird).sm ≠ none ∧
    ({ sv6 3 false 0 with zeroing := true } : SvCrrweird).zeroing = true ∧
    ({ sv6 3 false 0 with svMode := .dataDependent } : SvCrrweird).svMode ≠ .normal ∧
    ({ sv6 3 true 0 with rtElwidth := .w8 } : SvCrrweird).rtElwidth ≠ .default ∧
    (({ sv6 3 false 0 with vl := 65 } : SvCrrweird).rtIsVec = false ∧ 64 < ({ sv6 3 false 0 with vl := 65 } : SvCrrweird).vl) ∧
    64 < ({ svS2 with vl := 65 } : SvMtcrweird).vl ∧
    ({ files6 with crf := files6.crf.take 7 } : VecFiles).crf.length < 8 ∧
    ({ files6 with gpr := files6.gpr.take 31 } : VecFiles).gpr.length < 32 ∧
    (3 < (sv6 3 true 0).vl ∧ files6.crf.length ≤ ({ sv6 3 true 0 with bb := 5 } : SvCrrweird).bb + 3) ∧
    (3 < (sv6 29 true 0).vl ∧ files6.gpr.length ≤ (sv6 29 true 0).rt + 3 / packSize (sv6 29 true 0).bbElwidth) ∧
    (1 < ({ svS2 with bf := 9 } : SvMtcrweird).vl ∧ filesS2.crf.length ≤ ({ svS2 with bf := 9 } : SvMtcrweird).bf + 1) ∧
    filesS2.gpr.length ≤ ({ svS2 with ra := 32 } : SvMtcrweird).ra ∧ filesS2.gpr.length ≤ 32 := by decide

end Sys2Proof.Tests
end

section
/-! PROOFS. The helper functions `match4` and `reduce1` (00_scope.md R15). -/

namespace Sys2Proof.Machine

@[simp] theorem bitAt_xor {w : Nat} (x y : BitVec w) (i : Nat) : bitAt (x ^^^ y) i = (bitAt x i ^^ bitAt y i) := by
  simp [bitAt]

/-- The closed form of a match (00_scope.md R15): the mask, but for the bits in which `mode` and the field differ. -/
theorem match4_eq_and_not_xor (mask mode c : CrField) : match4 mask mode c = mask &&& ~~~(mode ^^^ c) := by
  apply crField_ext
  intro i hi
  rw [bitAt_match4 mask mode c hi, bitAt_and, bitAt_not _ hi, bitAt_xor, matchBit, ← Bool.bne_eq_xor, bne, Bool.not_not]

/-- A CR field is determined by its four bits (10_state.md R23). -/
theorem crField_eq_iff {x y : CrField} :
    x = y ↔ bitAt x 0 = bitAt y 0 ∧ bitAt x 1 = bitAt y 1 ∧ bitAt x 2 = bitAt y 2 ∧ bitAt x 3 = bitAt y 3 := by
  constructor
  · rintro rfl
    exact ⟨rfl, rfl, rfl, rfl⟩
  · rintro ⟨h0, h1, h2, h3⟩
    apply crField_ext
    intro i hi
    interval_cases i <;> assumption

theorem reduce1_true_eq (n : CrField) : reduce1 true n = decide (n ≠ 0b0000#4) := by
  simp [reduce1, crField_eq_iff, bitAt, Bool.or_assoc]

theorem reduce1_false_eq (n : CrField) : reduce1 false n = decide (n = 0b1111#4) := by
  simp [reduce1, crField_eq_iff, bitAt, Bool.and_assoc]

/-- A match is full exactly when no bit is masked out and the field equals `mode`. -/
theorem match4_eq_full_iff (mask mode c : CrField) :
    match4 mask mode c = 0b1111#4 ↔ mask = 0b1111#4 ∧ c = mode := by
  rw [match4_eq_and_not_xor, show (0b1111#4 : CrField) = BitVec.allOnes 4 from rfl, BitVec.and_eq_allOnes_iff]
  refine and_congr_right fun _ => ?_
  rw [← BitVec.not_zero, BitVec.not_inj, BitVec.xor_eq_zero_iff, eq_comm]

/-- The AND form is an equality test under a full mask, and 0 under any other (00_scope.md R15, 40_crrweird.md R83). -/
theorem reduce1_false_match4 (mask mode c : CrField) :
    reduce1 false (match4 mask mode c) = (decide (mask = 0b1111#4) && decide (c = mode)) := by
  rw [reduce1_false_eq, ← Bool.decide_and, decide_eq_decide.2 (match4_eq_full_iff mask mode c)]

/-- Settles O1: each conjunct is one of the closed forms above, for every mask, mode and field. -/
theorem matchAndReduceClosedForms : Obligations.MatchAndReduceClosedForms := by
  intro mask mode c n
  exact ⟨fun _ hi => bitAt_match4 mask mode c hi, match4_eq_and_not_xor mask mode c, reduce1_true_eq n, reduce1_false_eq n,
    reduce1_false_match4 mask mode c⟩

end Sys2Proof.Machine
end

section
/-! PROOFS. The operand `(RA|0)`, in the machine and in a line of assembler (00_scope.md R13, 30_encoding.md R74). -/

namespace Sys2Proof.Machine

/-- The operand with the field value as a number. -/
theorem State.readRaOrZero_eq (s : State) (ra : GprNum) :
    s.readRaOrZero ra = if ra.toNat = 0 then 0#64 else s.readGpr ra := by
  simp [State.readRaOrZero, BitVec.toNat_eq]

/-- General register 0 cannot be read through an `RA` field (00_scope.md R13). -/
@[simp] theorem State.readRaOrZero_writeGpr_zero (s : State) (v : Word) (ra : GprNum) :
    (s.writeGpr 0#5 v).readRaOrZero ra = s.readRaOrZero ra := by
  by_cases h : ra = 0#5
  · simp [State.readRaOrZero, h]
  · simp [State.readRaOrZero, h]

/-- `mtcrweird` commutes with a register write that leaves the tested bit of `(RA|0)` as it was: that bit is all it reads of
the general registers, and it writes none (41_mtcrweird.md R90). -/
theorem moveToCr_writeGpr (bf : CrfNum) (m : Bool) (mask mode : CrField) {s : State} {ra n : GprNum} {v : Word}
    (h : lsbOf ((s.writeGpr n v).readRaOrZero ra) = lsbOf (s.readRaOrZero ra)) :
    moveToCr bf ra m mask mode (s.writeGpr n v) = (moveToCr bf ra m mask mode s).writeGpr n v := by
  unfold moveToCr
  rw [h]
  rfl

/-- What the assembler makes of a `mtcrweird` line: each operand read on its own, the field `RA` by `raOperand?`
(30_encoding.md R71). -/
theorem assemble_mtcrweird_eq_some_iff {bf ra m mm : Operand} {i : Instr} :
    assemble ⟨.mtcrweird, [bf, ra, m, mm]⟩ = some i ↔
      ∃ f r b k d, crfOperand? bf = some f ∧ raOperand? ra = some r ∧ mOperand? m = some b ∧
        maskModeOperand? mm = some (k, d) ∧ i = .mtcrweird f r b k d := by
  simp only [assemble, Option.bind_eq_bind, Option.bind_eq_some_iff, Option.pure_def, Option.some.injEq]
  constructor
  · rintro ⟨⟨k, d⟩, hmm, f, hf, r, hr, b, hb, rfl⟩
    exact ⟨f, r, b, k, d, hf, hr, hb, hmm, rfl⟩
  · rintro ⟨f, r, b, k, d, hf, hr, hb, hmm, rfl⟩
    exact ⟨(k, d), hmm, f, hf, r, hr, b, hb, rfl⟩

/-- The two spellings of a zero `RA` operand (30_encoding.md R74). -/
@[simp] theorem raOperand?_reg_zero : raOperand? (.reg 0) = some 0#5 := rfl
@[simp] theorem raOperand?_num_zero : raOperand? (.num 0) = some 0#5 := rfl

/-- Settles O25: `mtcrweird` reads the general registers through `(RA|0)` only, which a write to `GPR[0]` leaves as it was;
both spellings give `raOperand?` the field value 0. -/
theorem raFieldZeroIsTheConstantZero : Obligations.RaFieldZeroIsTheConstantZero := by
  refine ⟨State.readRaOrZero_eq, fun bf ra m mask mode s t v h => ?_, fun bf m mm i => ⟨?_, fun h => ?_⟩⟩
  · cases h
    exact congrArg Host.Outcome.next
      (moveToCr_writeGpr bf m mask mode (congrArg lsbOf (s.readRaOrZero_writeGpr_zero v ra)))
  · simp only [assemble_mtcrweird_eq_some_iff, raOperand?_reg_zero, raOperand?_num_zero]
  · obtain ⟨f, r, b, k, d, -, hr, -, -, rfl⟩ := assemble_mtcrweird_eq_some_iff.1 h
    cases hr
    exact ⟨f, b, k, d, rfl⟩

end Sys2Proof.Machine
end

section
/-! PROOFS. The instructions and memory: none reads or writes it (20_memory.md R41). -/

namespace Sys2Proof.Machine

/-- The state with its memory replaced and all else kept. -/
def State.withMem (s : State) (mem : List Host.Cell) : State := { s with mem := mem }

section
variable (s : State) (mem : List Host.Cell) (n : GprNum) (v : Word) (f : CrfNum) (c : CrField)

@[simp] theorem State.withMem_xerSo : (s.withMem mem).xerSo = s.xerSo := rfl
@[simp] theorem State.readCrf_withMem : (s.withMem mem).readCrf f = s.readCrf f := rfl
@[simp] theorem State.readRaOrZero_withMem : (s.withMem mem).readRaOrZero n = s.readRaOrZero n := rfl

@[simp] theorem State.writeGpr_withMem : (s.withMem mem).writeGpr n v = (s.writeGpr n v).withMem mem := rfl
@[simp] theorem State.writeCrf_withMem : (s.withMem mem).writeCrf f c = (s.writeCrf f c).withMem mem := rfl
@[simp] theorem State.advance_withMem : (s.withMem mem).advance = s.advance.withMem mem := rfl

end

/-- `mtcrweird`, and with it every pseudo-op, does the same under any memory (41_mtcrweird.md R90). -/
@[simp] theorem moveToCr_withMem (bf : CrfNum) (ra : GprNum) (m : Bool) (mask mode : CrField) (s : State)
    (mem : List Host.Cell) :
    moveToCr bf ra m mask mode (s.withMem mem) = (moveToCr bf ra m mask mode s).withMem mem := by
  simp [moveToCr]

/-- No instruction writes memory: it writes registers and fields and moves `pc` on. -/
theorem exec_mem {i : Instr} {s t : State} (h : exec i s = .next t) : t.mem = s.mem := by
  rcases exec_cases i s with ⟨rt, v, e⟩ | ⟨rt, v, c, e⟩ | ⟨f, c, e⟩ <;>
    · rw [e] at h
      cases h
      simp

/-- No instruction reads memory: its operands come from registers and fields, so with another memory it gives the same next
state with that memory. -/
theorem exec_withMem {i : Instr} {s t : State} (mem : List Host.Cell) (h : exec i s = .next t) :
    exec i (s.withMem mem) = .next (t.withMem mem) := by
  cases i with
  | crrweird rt bfa m mask mode rc =>
    cases h
    cases rc <;> simp [exec, execCrrweird]
  | mtcrweird bf ra m mask mode =>
    cases h
    simp [exec, execMtcrweird]
  | crweirder bt bfa m mask mode =>
    cases h
    simp [exec, execCrweirder]
  | crweird bf bfa m mask mode =>
    cases h
    simp [exec, execCrweird]
  | mtcri bf mode =>
    cases h
    simp [exec, execMtcri]
  | mtcrset bf mask =>
    cases h
    simp [exec, execMtcrset]
  | mtcrclr bf mask =>
    cases h
    simp [exec, execMtcrclr]

/-- Settles O19: memory is kept by `exec_mem` and does not matter to the result by `exec_withMem`. -/
theorem instructionsDoNotTouchMemory : Obligations.InstructionsDoNotTouchMemory := by
  intro i s t mem h
  exact ⟨exec_mem h, exec_withMem mem h⟩

end Sys2Proof.Machine
end

section
/-! PROOFS. The word's slots: the operands every instruction of the CW-form has, and where they stand (30_encoding.md R61 to
R64); the four bytes of a word (R55). -/

namespace Sys2Proof

/-- A bit of a slice is a bit of the word, counted from the start of the slice (00_scope.md R9). -/
theorem bitAt_bitsFrom {w : Nat} (v : BitVec w) {a n i : Nat} (ha : a + n ≤ w) (hi : i < n) :
    bitAt (bitsFrom v a n) i = bitAt v (a + i) := by
  have hk : w - a - n + (n - 1 - i) = w - 1 - (a + i) := by omega
  have hn : n - 1 - i < n := by omega
  have hw : a + i < w := by omega
  simp [bitAt, bitsFrom, BitVec.getMsbD, hi, hn, hw, hk]

/-- The operands that stand in the same slots of the word in all four instructions: the CR field operand of slot `S16`, `M`,
`mask` and `mode` (30_encoding.md R56, R61 to R64). -/
structure SharedOperands where
  s16 : CrfNum
  m : Bool
  mask : CrField
  mode : CrField

/-- Those operands of an instruction; of a pseudo-op, the ones of its expansion (44_pseudo_ops.md R120 to R122). -/
def Instr.sharedOperands : Instr → SharedOperands
  | .crrweird _ bfa m mask mode _ => ⟨bfa, m, mask, mode⟩
  | .mtcrweird bf _ m mask mode => ⟨bf, m, mask, mode⟩
  | .crweirder _ bfa m mask mode => ⟨bfa, m, mask, mode⟩
  | .crweird _ bfa m mask mode => ⟨bfa, m, mask, mode⟩
  | .mtcri bf mode => ⟨bf, false, 0b1111#4, ~~~mode⟩
  | .mtcrset bf mask => ⟨bf, true, mask, 0b0000#4⟩
  | .mtcrclr bf mask => ⟨bf, true, mask, 0b1111#4⟩

/-- A pseudo-op shares the operands of the `mtcrweird` it expands to. -/
@[simp] theorem Instr.sharedOperands_expand (i : Instr) : i.expand.sharedOperands = i.sharedOperands := by
  cases i <;> rfl

/-- The slots of a word that `Instr.sharedOperands` names. -/
def sharedSlots (w : Insn) : SharedOperands :=
  ⟨bitsFrom w 16 3, bitAt w 11, bitsFrom w 12 4, bitsFrom w 27 4⟩

/-- The decoder takes the shared operands from the same slots, whichever of the four instructions it answers. -/
theorem sharedOperands_of_decodeWord {x : BitVec 5} {w : Insn} {i : Instr} (h : decodeWord x w = .ok i) :
    i.sharedOperands = sharedSlots w := by
  obtain ⟨-, -, -, ⟨-, rfl⟩ | ⟨-, -, rfl⟩ | ⟨-, -, rfl⟩ | ⟨-, -, -, rfl⟩⟩ := decodeWord_ok_cases h <;> rfl

/-- The word of a core instruction decodes to it (30_encoding.md R67). -/
theorem decodeWord_encode_of_core (x : BitVec 5) {i : Instr} (h : i.expand = i) : decodeWord x (encode x i) = .ok i := by
  cases i with
  | crrweird rt bfa m mask mode rc => simp [encode, decodeWord]
  | mtcrweird bf ra m mask mode => simp [encode, decodeWord]
  | crweirder bt bfa m mask mode => simp [encode, decodeWord]
  | crweird bf bfa m mask mode => simp [encode, decodeWord]
  | mtcri bf mode => cases h
  | mtcrset bf mask => cases h
  | mtcrclr bf mask => cases h

/-- The slots `mask` and `mode` bit by bit and the slot `S16` as a number (30_encoding.md R62 to R64). -/
theorem sharedSlots_bits {w : Insn} {a : SharedOperands} (h : a = sharedSlots w) :
    (∀ i, i < 4 → bitAt a.mask i = bitAt w (12 + i) ∧ bitAt a.mode i = bitAt w (27 + i)) ∧
      a.s16.toNat = w.toNat / 2 ^ 13 % 8 := by
  subst h
  exact ⟨fun i hi => ⟨bitAt_bitsFrom w (by decide) hi, bitAt_bitsFrom w (by decide) hi⟩, toNat_bitsFrom w 16 3⟩

/-- Settles O6: all four instructions take `mask`, `mode` and the CR field operand from the slots of `sharedSlots`; for every
value of the three the encoder's word is legal; the alignment is `bitAt_match4`. -/
theorem maskModeAndFieldStandInTheirBits : Obligations.MaskModeAndFieldStandInTheirBits := by
  refine ⟨fun x w mask mode s16 h => ?_, fun x mask mode s16 => ⟨?_, ?_, ?_, ?_⟩, fun mask mode c i hi => ?_⟩
  · obtain ⟨rt, m, rc, h⟩ | ⟨ra, m, h⟩ | ⟨bt, m, h⟩ | ⟨bf, m, h⟩ := h <;>
      exact sharedSlots_bits (sharedOperands_of_decodeWord h)
  · exact ⟨_, 0#5, false, false, decodeWord_encode_of_core x rfl⟩
  · exact ⟨_, 0#5, false, decodeWord_encode_of_core x rfl⟩
  · exact ⟨_, 0#5, false, decodeWord_encode_of_core x rfl⟩
  · exact ⟨_, 0#3, false, decodeWord_encode_of_core x rfl⟩
  · exact Machine.bitAt_match4 mask mode c hi

/-- A decode of a byte list is the decode of the word of its first four bytes, and leaves the others (30_encoding.md R55). -/
theorem decode_eq_ok {cfg : Config} {bs rest : List Byte} {i : Instr} (h : decode cfg bs = .ok (i, rest)) :
    ∃ b0 b1 b2 b3, bs = b0 :: b1 :: b2 :: b3 :: rest ∧
      decodeWord cfg.xoHi (wordOfBytes cfg.insnEndian b0 b1 b2 b3) = .ok i := by
  unfold decode at h
  split at h
  next b0 b1 b2 b3 tail =>
    split at h
    next j hj =>
      cases h
      exact ⟨b0, b1, b2, b3, rfl, hj⟩
    next => cases h
  next => cases h

@[simp] theorem length_encodeBytes (cfg : Config) (i : Instr) : (encodeBytes cfg i).length = 4 := rfl

/-- Settles O9: a decode that answers has taken four bytes by `decode_eq_ok`; an encoding lists the four bytes of its word. -/
theorem everyInstructionIsFourBytes : Obligations.EveryInstructionIsFourBytes := by
  refine ⟨fun cfg bs rest i h => ?_, length_encodeBytes⟩
  obtain ⟨b0, b1, b2, b3, rfl, -⟩ := decode_eq_ok h
  exact ⟨[b0, b1, b2, b3], rfl, rfl⟩

end Sys2Proof
end

section
/-! PROOFS. What each of the four instructions leaves in its destination, and what `M` selects there (30_encoding.md R61). -/

namespace Sys2Proof.Machine

@[simp] theorem bitAt_zext64_63 (b : Bool) : bitAt (zext64 b) 63 = b := by
  cases b <;> rfl

section
variable {rt : GprNum} {bf bfa : CrfNum} {ra : GprNum} {bt : BitVec 5} {m : Bool} {mask mode : CrField} {rc : Bool}
  {s t : State}

/-- The general register after `crrweird`, in both forms (40_crrweird.md R81). -/
theorem readGpr_of_exec_crrweird (h : exec (.crrweird rt bfa m mask mode rc) s = .next t) :
    t.readGpr rt = zext64 (reduce1 m (match4 mask mode (s.readCrf bfa))) := by
  cases h
  cases rc <;> simp

/-- The destination field after `crweirder` (43_crweirder.md R110). -/
theorem readCrf_of_exec_crweirder (h : exec (.crweirder bt bfa m mask mode) s = .next t) :
    t.readCrf (btField bt) =
      setCrBit (s.readCrf (btField bt)) (btBit bt) (reduce1 m (match4 mask mode (s.readCrf bfa))) := by
  cases h
  simp

/-- The destination field after `mtcrweird` (41_mtcrweird.md R90). -/
theorem readCrf_of_exec_mtcrweird (h : exec (.mtcrweird bf ra m mask mode) s = .next t) :
    t.readCrf bf =
      mergeField m mask (match4 mask mode (replicate4 (lsbOf (s.readRaOrZero ra)))) (s.readCrf bf) := by
  cases h
  simp [moveToCr]

/-- The destination field after `crweird` (42_crweird.md R100). -/
theorem readCrf_of_exec_crweird (h : exec (.crweird bf bfa m mask mode) s = .next t) :
    t.readCrf bf = mergeField m mask (match4 mask mode (s.readCrf bfa)) (s.readCrf bf) := by
  cases h
  simp

end

/-- Outside `mask` a match is 0, so the merged field has its old bit for `M = 1` and 0 for `M = 0` (41_mtcrweird.md R91,
42_crweird.md R101). -/
theorem bitAt_mergeField_match4_of_unmasked (m : Bool) {mask : CrField} (mode c old : CrField) {i : Nat} (hi : i < 4)
    (hm : bitAt mask i = false) :
    bitAt (mergeField m mask (match4 mask mode c) old) i = if m then bitAt old i else false := by
  rw [bitAt_mergeField m mask _ old hi, bitAt_match4 mask mode c hi, matchBit, hm]
  cases m <;> simp

/-- Settles O30: `crrweird` and `crweirder` store `reduce1 m` of the match, `mtcrweird` and `crweird` a merged field, in which
`M` decides about the bits outside `mask`; the decoder reads `M` from the slot of `sharedSlots`. -/
theorem mSelectsReductionOrUpdate : Obligations.MSelectsReductionOrUpdate := by
  refine ⟨?_, ?_, ?_, ?_, ?_⟩
  · rintro rt bfa m mask mode rc s n rfl
    refine ⟨_, rfl, ?_⟩
    rw [readGpr_of_exec_crrweird rfl, bitAt_zext64_63, reduce1]
  · rintro bt bfa m mask mode s n rfl
    refine ⟨_, rfl, ?_⟩
    rw [readCrf_of_exec_crweirder rfl, bitAt_setCrBit _ _ _ (btBit bt).isLt, if_pos rfl, reduce1]
  · intro bf ra m mask mode s i hi hm
    refine ⟨_, rfl, ?_⟩
    rw [readCrf_of_exec_mtcrweird rfl]
    exact bitAt_mergeField_match4_of_unmasked m mode _ _ hi hm
  · intro bf bfa m mask mode s i hi hm
    refine ⟨_, rfl, ?_⟩
    rw [readCrf_of_exec_crweird rfl]
    exact bitAt_mergeField_match4_of_unmasked m mode _ _ hi hm
  · intro x w m h
    obtain ⟨rt, bfa, mask, mode, rc, h⟩ | ⟨bf, ra, mask, mode, h⟩ | ⟨bt, bfa, mask, mode, h⟩ | ⟨bf, bfa, mask, mode, h⟩ := h <;>
      exact congrArg SharedOperands.m (sharedOperands_of_decodeWord h)

end Sys2Proof.Machine
end

section
/-! PROOFS. Each bit of the field that `mtcrweird` writes (41_mtcrweird.md R90, R91). -/

namespace Sys2Proof.Machine

/-- Bit 63 of a register, MSB0, is bit 0 of its value: it says whether the value is odd (00_scope.md R8). -/
theorem lsbOf_eq (v : Word) : lsbOf v = (v.toNat % 2 == 1) :=
  Nat.testBit_zero v.toNat

/-- The bit that `mtcrweird` tests (41_mtcrweird.md R90): 0 for the field value 0. -/
theorem lsbOf_readRaOrZero (s : State) (ra : GprNum) :
    lsbOf (s.readRaOrZero ra) = if ra = 0#5 then false else (s.readGpr ra).toNat % 2 == 1 := by
  rw [State.readRaOrZero, apply_ite lsbOf, lsbOf_eq (s.readGpr ra)]
  rfl

/-- Under `mask` the merged field has the match of `mode` against the tested field, for both values of `M` (41_mtcrweird.md
R91, 42_crweird.md R101). -/
theorem bitAt_mergeField_match4_of_masked (m : Bool) {mask : CrField} (mode c old : CrField) {i : Nat} (hi : i < 4)
    (hm : bitAt mask i = true) :
    bitAt (mergeField m mask (match4 mask mode c) old) i = (bitAt mode i == bitAt c i) := by
  rw [bitAt_mergeField m mask _ old hi, bitAt_match4 mask mode c hi, matchBit, hm]
  simp

/-- Settles O23: the new field is the merge of a match against four copies of the tested bit; the mask bit decides between
the match and what `M` leaves. -/
theorem mtcrweirdSetsEachBit : Obligations.MtcrweirdSetsEachBit := by
  intro bf ra m mask mode s
  refine ⟨_, rfl, fun i hi => ?_⟩
  rw [readCrf_of_exec_mtcrweird rfl]
  by_cases hm : bitAt mask i = true
  · rw [if_pos hm, bitAt_mergeField_match4_of_masked m mode _ _ hi hm, bitAt_replicate4 _ hi, lsbOf_readRaOrZero]
  · rw [if_neg hm]
    exact bitAt_mergeField_match4_of_unmasked m mode _ _ hi (Bool.eq_false_of_not_eq_true hm)

end Sys2Proof.Machine
end

section
/-! PROOFS. Each bit of the field that `crweird` writes (42_crweird.md R100, R101). -/

namespace Sys2Proof.Machine

/-- Settles O27: the new field is the merge of a match against `CRF[BFA]` with `CRF[BF]`, both read before the write, so
`BF = BFA` is no case of its own; the mask bit decides between the match and what `M` leaves. -/
theorem crweirdSetsEachBit : Obligations.CrweirdSetsEachBit := by
  intro bf bfa m mask mode s
  refine ⟨_, rfl, fun i hi => ?_⟩
  rw [readCrf_of_exec_crweird rfl]
  by_cases hm : bitAt mask i = true
  · rw [if_pos hm]
    exact bitAt_mergeField_match4_of_masked m mode _ _ hi hm
  · rw [if_neg hm]
    exact bitAt_mergeField_match4_of_unmasked m mode _ _ hi (Bool.eq_false_of_not_eq_true hm)

end Sys2Proof.Machine
end

section
/-! PROOFS. Decoder and encoder undo each other, on words and on bytes (30_encoding.md R67, R75, R123; 20_memory.md R42). -/

namespace Sys2Proof

/-- A pseudo-op and its expansion have one word; any other instruction is its own expansion (44_pseudo_ops.md R120 to R122). -/
theorem encode_expand (x : BitVec 5) (i : Instr) : encode x i.expand = encode x i := by
  cases i with
  | mtcri bf mode => exact (Laws.ExpansionIsSameWord.mtcri bf mode x).symm
  | mtcrset bf mask => exact (Laws.ExpansionIsSameWord.mtcrset bf mask x).symm
  | mtcrclr bf mask => exact (Laws.ExpansionIsSameWord.mtcrclr bf mask x).symm
  | _ => rfl

/-- Settles O2: an instruction has the word of its expansion, and the word of a core instruction decodes to it. -/
theorem decodeOfEncodeIsTheCoreInstruction : Obligations.DecodeOfEncodeIsTheCoreInstruction := by
  intro x i
  rw [← encode_expand]
  exact decodeWord_encode_of_core x i.expand_expand

/-- A slice of a slice is a slice (00_scope.md R9). -/
theorem bitsFrom_bitsFrom {w : Nat} (v : BitVec w) {a n b k : Nat} (ha : a + n ≤ w) (hb : b + k ≤ n) :
    bitsFrom (bitsFrom v a n) b k = bitsFrom v (a + b) k := by
  apply BitVec.eq_of_getLsbD_eq
  intro i hi
  have hk : w - a - n + (n - b - k + i) = w - (a + b) - k + i := by omega
  have hn : n - b - k + i < n := by omega
  simp [bitsFrom, hi, hk, hn]

/-- Where `insn[9:10]` is zero, slot `S6` is its three high bits, placed as the encoder of `crweird` does
(30_encoding.md R60). -/
theorem crweird_slot_of_bitsFrom_low {w : Insn} (h : bitsFrom w 9 2 = 0b00#2) :
    (bitsFrom w 6 3).setWidth 5 <<< 2 = bitsFrom w 6 5 := by
  have hs := crweird_slot_of_low_zero (bitsFrom w 6 5)
  rw [bitsFrom_bitsFrom w (by omega) (by omega), bitsFrom_bitsFrom w (by omega) (by omega)] at hs
  exact hs h

/-- Settles O3: a legal word is assembled from its own fields, and the fields that are no operand hold what the encoder puts
there. -/
theorem encodeOfDecodeIsTheWord : Obligations.EncodeOfDecodeIsTheWord := by
  intro x w i h
  obtain ⟨hp, hx, hz, hi⟩ := decodeWord_ok_cases h
  have hw := cwForm_of_fields w hp hz
  rw [hx] at hw
  obtain ⟨hs, rfl⟩ | ⟨hs, hrc, rfl⟩ | ⟨hs, hrc, rfl⟩ | ⟨hs, hrc, hr, rfl⟩ := hi
  · rwa [hs] at hw
  · rwa [hs, hrc] at hw
  · rwa [hs, hrc] at hw
  · rwa [hs, hrc, ← crweird_slot_of_bitsFrom_low hr] at hw

/-- A list of four bytes and more decodes as the word of the four (30_encoding.md R55). -/
theorem decode_bytesOfWord_append (cfg : Config) (w : Insn) (rest : List Byte) {i : Instr}
    (h : decodeWord cfg.xoHi w = .ok i) : decode cfg (bytesOfWord cfg.insnEndian w ++ rest) = .ok (i, rest) := by
  simp [bytesOfWord, decode, wordOfBytes_byteOfWord, h]

/-- Settles O10: the four bytes of a word assemble to the word again, which decodes to the core instruction. -/
theorem decodeOfEncodedBytes : Obligations.DecodeOfEncodedBytes := by
  intro cfg i rest
  exact decode_bytesOfWord_append cfg _ rest (decodeOfEncodeIsTheCoreInstruction cfg.xoHi i)

/-- Settles O11: the decoder is run on each of the six words. -/
theorem sampleWordsDecode : Obligations.SampleWordsDecode :=
  ⟨rfl, rfl, rfl, rfl, rfl, rfl⟩

end Sys2Proof
end

section
/-! PROOFS. Which words are legal, and which of the four instructions a legal word is (30_encoding.md R57 to R60,
R65, R68). -/

namespace Sys2Proof

/-- The selector as a number (30_encoding.md R59). -/
theorem toNat_selector {w : Insn} {sel : BitVec 2} (h : bitsFrom w 19 2 = sel) : w.toNat / 2 ^ 11 % 4 = sel.toNat := by
  rw [← h]
  exact (toNat_bitsFrom w 19 2).symm

/-- Settles O5: each of the four cases of the decoder has its selector, and the four numbers differ. -/
theorem selectorBitsNameTheInstruction : Obligations.SelectorBitsNameTheInstruction := by
  intro x w i h
  obtain ⟨-, -, -, ⟨hs, rfl⟩ | ⟨hs, -, rfl⟩ | ⟨hs, -, rfl⟩ | ⟨hs, -, -, rfl⟩⟩ := decodeWord_ok_cases h <;>
    · rw [toNat_selector hs]
      simp [Instr.expand]

/-- A word that decodes to nothing is answered with a reason. -/
theorem decodeWord_eq_error_of_ne_ok {x : BitVec 5} {w : Insn} (h : ∀ i, decodeWord x w ≠ .ok i) :
    ∃ e, decodeWord x w = .error e := by
  cases hd : decodeWord x w with
  | ok i => exact absurd hd (h i)
  | error e => exact ⟨e, rfl⟩

/-- Settles O7: no case of a word that decodes has the reserved bit of any of the three clauses set. -/
theorem reservedBitsMakeAWordIllegal : Obligations.ReservedBitsMakeAWordIllegal := by
  intro x w h
  refine decodeWord_eq_error_of_ne_ok fun i hi => ?_
  obtain ⟨-, -, hz, hcase⟩ := decodeWord_ok_cases hi
  rcases h with h | ⟨h31, hsel⟩ | ⟨hlow, hsel⟩
  · rw [hz] at h
    cases h
  · obtain ⟨hs, -⟩ | ⟨-, hrc, -⟩ | ⟨-, hrc, -⟩ | ⟨-, hrc, -⟩ := hcase
    · exact hsel (toNat_selector hs)
    all_goals
      rw [hrc] at h31
      cases h31
  · obtain ⟨hs, -⟩ | ⟨hs, -⟩ | ⟨hs, -⟩ | ⟨-, -, hr, -⟩ := hcase
    · exact absurd ((toNat_selector hs).symm.trans hsel) (by decide)
    · exact absurd ((toNat_selector hs).symm.trans hsel) (by decide)
    · exact absurd ((toNat_selector hs).symm.trans hsel) (by decide)
    · have := toNat_bitsFrom w 9 2
      rw [hr] at this
      exact hlow this.symm

/-- Settles O8: a word that decodes has 19 in `insn[0:5]` and `XO_HI` in `insn[21:25]`. -/
theorem otherOpcodesAreIllegal : Obligations.OtherOpcodesAreIllegal := by
  intro x w h
  refine decodeWord_eq_error_of_ne_ok fun i hi => ?_
  obtain ⟨hp, hx, -⟩ := decodeWord_ok_cases hi
  have hpn := toNat_bitsFrom w 0 6
  have hxn := toNat_bitsFrom w 21 5
  rw [hp] at hpn
  rw [hx] at hxn
  have := w.isLt
  simp at hpn
  omega

/-- Slot `S6` as the encoder fills it (30_encoding.md R60, R75); of a pseudo-op, the slot of its expansion. -/
def Instr.slotS6 : Instr → BitVec 5
  | .crrweird rt _ _ _ _ _ => rt
  | .mtcrweird _ ra _ _ _ => ra
  | .crweirder bt _ _ _ _ => bt
  | .crweird bf _ _ _ _ => bf.setWidth 5 <<< 2
  | _ => 0#5

/-- `insn[31]` as the encoder fills it: `Rc` in `crrweird`, zero in all others (30_encoding.md R65). -/
def Instr.recordBit : Instr → Bool
  | .crrweird _ _ _ _ _ rc => rc
  | _ => false

/-- The decoder takes the operand of slot `S6` from `insn[6:10]`, whichever of the four instructions it answers. -/
theorem slotS6_of_decodeWord {x : BitVec 5} {w : Insn} {i : Instr} (h : decodeWord x w = .ok i) :
    i.slotS6.toNat = w.toNat / 2 ^ 21 % 32 := by
  rw [← show (bitsFrom w 6 5).toNat = w.toNat / 2 ^ 21 % 32 from toNat_bitsFrom w 6 5]
  obtain ⟨-, -, -, ⟨-, rfl⟩ | ⟨-, -, rfl⟩ | ⟨-, -, rfl⟩ | ⟨-, -, hr, rfl⟩⟩ := decodeWord_ok_cases h
  · rfl
  · rfl
  · rfl
  · exact congrArg BitVec.toNat (crweird_slot_of_bitsFrom_low hr)

/-- A legal word has in `insn[31]` the record bit of its instruction. -/
theorem recordBit_of_decodeWord {x : BitVec 5} {w : Insn} {i : Instr} (h : decodeWord x w = .ok i) :
    i.recordBit = bitAt w 31 := by
  obtain ⟨-, -, -, ⟨-, rfl⟩ | ⟨-, hrc, rfl⟩ | ⟨-, hrc, rfl⟩ | ⟨-, hrc, -, rfl⟩⟩ := decodeWord_ok_cases h
  · rfl
  all_goals exact hrc.symm

/-- The two parts of a bit target as numbers: `BT = bit * 8 + BF` (30_encoding.md R60). -/
theorem toNat_btBit (bt : BitVec 5) : (Machine.btBit bt).toNat = bt.toNat / 8 := by
  revert bt; decide

theorem toNat_btField (bt : BitVec 5) : (Machine.btField bt).toNat = bt.toNat % 8 := by
  revert bt; decide

/-- The `S6` slot of `crweird` as a number: the field number times 4 (30_encoding.md R60). -/
theorem toNat_crweird_slot (bf : CrfNum) : (bf.setWidth 5 <<< 2).toNat = 4 * bf.toNat := by
  revert bf; decide

/-- Settles O58: the slot and the record bit of the decoded instruction are those of the word; the word the encoder gives for
any value of either decodes. -/
theorem slotS6AndRcStandInTheirBits : Obligations.SlotS6AndRcStandInTheirBits := by
  refine ⟨fun x w s16 m mask mode => ⟨fun rt rc h => ?_, fun ra h => ?_, fun bt h => ?_, fun bf h => ?_⟩,
    fun x s6 bf rc => ⟨?_, ?_, ?_, ?_⟩⟩
  · exact ⟨slotS6_of_decodeWord h, recordBit_of_decodeWord h⟩
  · exact ⟨slotS6_of_decodeWord h, (recordBit_of_decodeWord h).symm⟩
  · have hbt : bt.toNat = w.toNat / 2 ^ 21 % 32 := slotS6_of_decodeWord h
    rw [toNat_btBit, toNat_btField]
    exact ⟨hbt, by omega, by omega, (recordBit_of_decodeWord h).symm⟩
  · have hbf : 4 * bf.toNat = w.toNat / 2 ^ 21 % 32 := by
      rw [← toNat_crweird_slot]
      exact slotS6_of_decodeWord h
    exact ⟨by omega, by omega, (recordBit_of_decodeWord h).symm⟩
  · exact ⟨_, 0#3, false, 0#4, 0#4, decodeWord_encode_of_core x rfl⟩
  · exact ⟨_, 0#3, false, 0#4, 0#4, decodeWord_encode_of_core x rfl⟩
  · exact ⟨_, 0#3, false, 0#4, 0#4, decodeWord_encode_of_core x rfl⟩
  · exact ⟨_, 0#3, false, 0#4, 0#4, decodeWord_encode_of_core x rfl⟩

end Sys2Proof
end

section
/-! PROOFS. The match and mask rows of the opcode table, field by field (30_encoding.md R75). -/

namespace Sys2Proof

/-- Equal slices have equal bits (00_scope.md R9). -/
theorem bitAt_eq_of_bitsFrom_eq {w : Nat} {v u : BitVec w} {a n i : Nat} (h : bitsFrom v a n = bitsFrom u a n)
    (ha : a + n ≤ w) (hi : a ≤ i ∧ i < a + n) : bitAt v i = bitAt u i := by
  have hb := congrArg (bitAt · (i - a)) h
  simp only [bitAt_bitsFrom _ ha (show i - a < n by omega)] at hb
  rwa [show a + (i - a) = i by omega] at hb

/-- Two words are equal when every field of the CW-form is (30_encoding.md R56). -/
theorem insn_eq_iff_fields {w v : Insn} :
    w = v ↔ bitsFrom w 0 6 = bitsFrom v 0 6 ∧ bitsFrom w 6 5 = bitsFrom v 6 5 ∧ bitAt w 11 = bitAt v 11 ∧
      bitsFrom w 12 4 = bitsFrom v 12 4 ∧ bitsFrom w 16 3 = bitsFrom v 16 3 ∧ bitsFrom w 19 2 = bitsFrom v 19 2 ∧
      bitsFrom w 21 5 = bitsFrom v 21 5 ∧ bitAt w 26 = bitAt v 26 ∧ bitsFrom w 27 4 = bitsFrom v 27 4 ∧
      bitAt w 31 = bitAt v 31 := by
  constructor
  · rintro rfl
    simp
  · rintro ⟨h0, h6, h11, h12, h16, h19, h21, h26, h27, h31⟩
    refine BitVec.eq_of_getMsbD_eq fun i hi => ?_
    have hplace : i < 6 ∨ (6 ≤ i ∧ i < 11) ∨ i = 11 ∨ (12 ≤ i ∧ i < 16) ∨ (16 ≤ i ∧ i < 19) ∨ (19 ≤ i ∧ i < 21) ∨
      (21 ≤ i ∧ i < 26) ∨ i = 26 ∨ (27 ≤ i ∧ i < 31) ∨ i = 31 := by omega
    rcases hplace with h | h | rfl | h | h | h | h | rfl | h | rfl
    · exact bitAt_eq_of_bitsFrom_eq h0 (by decide) (by omega)
    · exact bitAt_eq_of_bitsFrom_eq h6 (by decide) h
    · exact h11
    · exact bitAt_eq_of_bitsFrom_eq h12 (by decide) h
    · exact bitAt_eq_of_bitsFrom_eq h16 (by decide) h
    · exact bitAt_eq_of_bitsFrom_eq h19 (by decide) h
    · exact bitAt_eq_of_bitsFrom_eq h21 (by decide) h
    · exact h26
    · exact bitAt_eq_of_bitsFrom_eq h27 (by decide) h
    · exact h31

/-- A slice of an AND. -/
theorem bitsFrom_and {w : Nat} (x y : BitVec w) (a n : Nat) :
    bitsFrom (x &&& y) a n = bitsFrom x a n &&& bitsFrom y a n :=
  BitVec.extractLsb'_and

/-- A mask of the opcode table: it keeps the fixed fields and `insn[26]` of a word, of slot `S6` the bits `s6`, `insn[31]` if
`r`, and no bit of the other operands. -/
structure IsRowMask (k : Insn) (s6 : BitVec 5) (r : Bool) : Prop where
  po : bitsFrom k 0 6 = BitVec.allOnes 6
  slot : bitsFrom k 6 5 = s6
  m : bitAt k 11 = false
  maskSlot : bitsFrom k 12 4 = 0#4
  s16 : bitsFrom k 16 3 = 0#3
  sel : bitsFrom k 19 2 = BitVec.allOnes 2
  xoHi : bitsFrom k 21 5 = BitVec.allOnes 5
  z : bitAt k 26 = true
  mode : bitsFrom k 27 4 = 0#4
  rc : bitAt k 31 = r

/-- What a row asks of a word: the fixed fields, the selector, and the reserved bits of the row zero. -/
theorem and_mask_eq_cwForm_iff {mask : Insn} {s6 : BitVec 5} {r : Bool} (h : IsRowMask mask s6 r) (w : Insn) (sel : BitVec 2)
    (x : BitVec 5) :
    w &&& mask = cwForm 0#5 false 0#4 0#3 sel x 0#4 false ↔
      bitsFrom w 0 6 = 19#6 ∧ bitsFrom w 21 5 = x ∧ bitAt w 26 = false ∧ bitsFrom w 19 2 = sel ∧
        bitsFrom w 6 5 &&& s6 = 0#5 ∧ (bitAt w 31 && r) = false := by
  obtain ⟨h0, h6, h11, h12, h16, h19, h21, h26, h27, h31⟩ := h
  simp only [insn_eq_iff_fields, bitsFrom_and, Machine.bitAt_and, h0, h6, h11, h12, h16, h19, h21, h26, h27, h31,
    bitsFrom_cwForm_PO, bitsFrom_cwForm_S6, bitAt_cwForm_M, bitsFrom_cwForm_mask, bitsFrom_cwForm_S16, bitsFrom_cwForm_SEL,
    bitsFrom_cwForm_XO_HI, bitAt_cwForm_Z, bitsFrom_cwForm_mode, bitAt_cwForm_Rc, BitVec.and_allOnes, BitVec.and_zero,
    Bool.and_true, Bool.and_false, true_and]
  tauto

/-- `insn[9:10]` is what the mask of the `crweird` row keeps of slot `S6`. -/
theorem slotS6_and_three_eq_zero_iff (w : Insn) : bitsFrom w 6 5 &&& 0b00011#5 = 0#5 ↔ bitsFrom w 9 2 = 0b00#2 := by
  have low : ∀ s : BitVec 5, s &&& 0b00011#5 = 0#5 ↔ bitsFrom s 3 2 = 0b00#2 := by decide
  rw [low, bitsFrom_bitsFrom w (by omega) (by omega)]

/-- Which words decode: the fixed fields, no reserved bit, any selector (30_encoding.md R67, R68). -/
theorem decodeWord_isOk_iff {x : BitVec 5} {w : Insn} :
    (∃ i, decodeWord x w = .ok i) ↔
      bitsFrom w 0 6 = 19#6 ∧ bitsFrom w 21 5 = x ∧ bitAt w 26 = false ∧
        (bitsFrom w 19 2 = 0b00#2 ∨
         bitAt w 31 = false ∧ (bitsFrom w 19 2 = 0b01#2 ∨ bitsFrom w 19 2 = 0b10#2 ∨
           bitsFrom w 19 2 = 0b11#2 ∧ bitsFrom w 9 2 = 0b00#2)) := by
  constructor
  · rintro ⟨i, h⟩
    obtain ⟨hp, hx, hz, ⟨hs, -⟩ | ⟨hs, hrc, -⟩ | ⟨hs, hrc, -⟩ | ⟨hs, hrc, hr, -⟩⟩ := decodeWord_ok_cases h <;>
      simp [*]
  · rintro ⟨hp, hx, hz, hs | ⟨hrc, hs | hs | ⟨hs, hr⟩⟩⟩
    · simp [decodeWord, hp, hx, hz, hs]
    · simp [decodeWord, hp, hx, hz, hs, hrc]
    · simp [decodeWord, hp, hx, hz, hs, hrc]
    · simp [decodeWord, hp, hx, hz, hs, hrc, hr]

/-- Settles O4: the match of each row is the word with every operand zero, so a row asks for the fixed fields, its selector and
its reserved bits; the four rows together ask what the decoder asks. -/
theorem decodesExactlyTheFourPatterns : Obligations.DecodesExactlyTheFourPatterns := by
  intro x w
  have m0 : 0x4C000000#32 ||| (x.setWidth 32 <<< 6) = cwForm 0#5 false 0#4 0#3 0b00#2 x 0#4 false := by revert x; decide
  have m1 : 0x4C000800#32 ||| (x.setWidth 32 <<< 6) = cwForm 0#5 false 0#4 0#3 0b01#2 x 0#4 false := by revert x; decide
  have m2 : 0x4C001000#32 ||| (x.setWidth 32 <<< 6) = cwForm 0#5 false 0#4 0#3 0b10#2 x 0#4 false := by revert x; decide
  have m3 : 0x4C001800#32 ||| (x.setWidth 32 <<< 6) = cwForm 0#5 false 0#4 0#3 0b11#2 x 0#4 false := by revert x; decide
  have k0 : IsRowMask 0xFC001FE0#32 0#5 false := by constructor <;> decide
  have k1 : IsRowMask 0xFC001FE1#32 0#5 true := by constructor <;> decide
  have k3 : IsRowMask 0xFC601FE1#32 0b00011#5 true := by constructor <;> decide
  rw [m0, m1, m2, m3, and_mask_eq_cwForm_iff k0, and_mask_eq_cwForm_iff k1, and_mask_eq_cwForm_iff k1,
    and_mask_eq_cwForm_iff k3, slotS6_and_three_eq_zero_iff, decodeWord_isOk_iff]
  simp only [BitVec.and_zero, Bool.and_true, Bool.and_false, true_and, and_true]
  tauto

end Sys2Proof
end

section
/-! PROOFS. What every instruction does to the program counter and to what is no register (60_exceptions.md R152, 10_state.md
R26, R28, R32). -/

namespace Sys2Proof.Machine

/-- Every instruction completes from every state (60_exceptions.md R152). -/
theorem exec_eq_next (i : Instr) (s : State) : ∃ t, exec i s = .next t := by
  rcases exec_cases i s with ⟨rt, v, h⟩ | ⟨rt, v, c, h⟩ | ⟨f, c, h⟩ <;> exact ⟨_, h⟩

section
variable {i : Instr} {s t : State}

/-- Every instruction moves `pc` on by 4 modulo 2^64 (10_state.md R28). -/
theorem exec_pc (h : exec i s = .next t) : t.pc = s.pc + 4#64 := by
  rcases exec_cases i s with ⟨rt, v, e⟩ | ⟨rt, v, c, e⟩ | ⟨f, c, e⟩ <;>
    · rw [e] at h
      cases h
      simp

/-- No instruction changes `XER_SO`, the launch parameters or a byte of the text (10_state.md R26, R32, 20_memory.md R41). -/
theorem exec_sameBeside (h : exec i s = .next t) : SameBeside s t := by
  rcases exec_cases i s with ⟨rt, v, e⟩ | ⟨rt, v, c, e⟩ | ⟨f, c, e⟩ <;>
    · rw [e] at h
      cases h
      exact ⟨rfl, rfl, fun _ => rfl⟩

end

/-- Settles O18: each clause is a fact about every instruction. -/
theorem everyInstructionCompletesAndAdvances : Obligations.EveryInstructionCompletesAndAdvances := by
  intro i s
  obtain ⟨t, h⟩ := exec_eq_next i s
  refine ⟨t, h, ?_, exec_sameBeside h, exec_mem h⟩
  rw [exec_pc h]
  rfl

end Sys2Proof.Machine
end

section
/-! PROOFS. The outcomes of a step, and when each is given (60_exceptions.md R150 to R156, 70_reset_and_hazards.md R173). -/

namespace Sys2Proof.Machine

/-- A word is illegal when the decoder answers with a reason (30_encoding.md R67). -/
theorem legalWord_eq_false_iff {x : BitVec 5} {w : Insn} : legalWord x w = false ↔ ∃ e, decodeWord x w = .error e := by
  unfold legalWord
  cases decodeWord x w <;> simp

theorem legalWord_eq_true_iff {x : BitVec 5} {w : Insn} : legalWord x w = true ↔ ∃ i, decodeWord x w = .ok i := by
  unfold legalWord
  cases decodeWord x w <;> simp

section
variable {s : State}

theorem State.inText_eq_false_iff {a : Nat} : s.inText a = false ↔ a < s.cfg.textBase.toNat ∨ s.textEnd ≤ a := by
  rw [← Bool.not_eq_true, State.inText_iff]
  omega

/-- At the address past the text a step ends the run (70_reset_and_hazards.md R173). -/
theorem step_of_pc_eq_textEnd (h : s.pc.toNat = s.textEnd) : step s = .refused .endOfRun := by
  simp [step, fetchInstr, fetchWord, h]

/-- At any other address that is misaligned or outside the text a step raises a fetch fault (60_exceptions.md R153). -/
theorem step_of_pc_outside (hne : s.pc.toNat ≠ s.textEnd) (h : s.pc.toNat % 4 ≠ 0 ∨ s.inText s.pc.toNat = false) :
    step s = .fault (.fetchFault s.pc) := by
  by_cases h4 : s.pc.toNat % 4 = 0
  · have hout := h.resolve_left (not_not_intro h4)
    simp [step, fetchInstr, fetchWord, raise, hne, h4, hout]
  · simp [step, fetchInstr, fetchWord, raise, hne, h4]

section
variable (h4 : s.pc.toNat % 4 = 0) (ht : s.inText s.pc.toNat = true)
include h4 ht

/-- At an aligned address of the text a step runs the instruction there (60_exceptions.md R156). -/
theorem step_of_decodeWord_ok {i : Instr}
    (h : decodeWord s.cfg.xoHi (Memory.readWord s.cfg.insnEndian s.mem s.pc.toNat) = .ok i) : step s = exec i s := by
  simp [step, fetchInstr, fetchWord_of_inText h4 ht, h]

/-- At an aligned address of the text that holds no instruction a step raises an illegal instruction (60_exceptions.md R151). -/
theorem step_of_illegalWord (h : legalWord s.cfg.xoHi (Memory.readWord s.cfg.insnEndian s.mem s.pc.toNat) = false) :
    step s = .fault (.illegalInstruction s.pc (Memory.readWord s.cfg.insnEndian s.mem s.pc.toNat)) := by
  obtain ⟨e, he⟩ := legalWord_eq_false_iff.1 h
  simp [step, fetchInstr, fetchWord_of_inText h4 ht, he, raise]

/-- At an aligned address of the text that holds an instruction a step gives a next state (60_exceptions.md R152). -/
theorem step_of_legalWord (h : legalWord s.cfg.xoHi (Memory.readWord s.cfg.insnEndian s.mem s.pc.toNat) = true) :
    ∃ t, step s = .next t := by
  obtain ⟨i, hi⟩ := legalWord_eq_true_iff.1 h
  obtain ⟨t, hx⟩ := exec_eq_next i s
  exact ⟨t, (step_of_decodeWord_ok h4 ht hi).trans hx⟩

end

end

/-- Everything a step can do, with the condition of each outcome, tested in the order of 60_exceptions.md R156. -/
theorem step_cases (s : State) :
    (s.pc.toNat = s.textEnd ∧ step s = .refused .endOfRun) ∨
    (s.pc.toNat ≠ s.textEnd ∧ (s.pc.toNat % 4 ≠ 0 ∨ s.inText s.pc.toNat = false) ∧ step s = .fault (.fetchFault s.pc)) ∨
    (s.pc.toNat % 4 = 0 ∧ s.inText s.pc.toNat = true ∧
      ((legalWord s.cfg.xoHi (Memory.readWord s.cfg.insnEndian s.mem s.pc.toNat) = true ∧ ∃ t, step s = .next t) ∨
       (legalWord s.cfg.xoHi (Memory.readWord s.cfg.insnEndian s.mem s.pc.toNat) = false ∧
        step s = .fault (.illegalInstruction s.pc (Memory.readWord s.cfg.insnEndian s.mem s.pc.toNat))))) := by
  by_cases he : s.pc.toNat = s.textEnd
  · exact .inl ⟨he, step_of_pc_eq_textEnd he⟩
  by_cases h4 : s.pc.toNat % 4 = 0
  · cases ht : s.inText s.pc.toNat with
    | false => exact .inr (.inl ⟨he, .inr rfl, step_of_pc_outside he (.inr ht)⟩)
    | true =>
      cases hw : legalWord s.cfg.xoHi (Memory.readWord s.cfg.insnEndian s.mem s.pc.toNat) with
      | true => exact .inr (.inr ⟨h4, rfl, .inl ⟨rfl, step_of_legalWord h4 ht hw⟩⟩)
      | false => exact .inr (.inr ⟨h4, rfl, .inr ⟨rfl, step_of_illegalWord h4 ht hw⟩⟩)
  · exact .inr (.inl ⟨he, .inl h4, step_of_pc_outside he (.inl h4)⟩)

/-- Settles O17: the outcomes of `step_cases`. -/
theorem stepHasThreeOutcomes : Obligations.StepHasThreeOutcomes := by
  intro s
  obtain ⟨-, h⟩ | ⟨-, -, h⟩ | ⟨-, -, ⟨-, h⟩ | ⟨-, h⟩⟩ := step_cases s
  · exact .inr (.inl h)
  · exact .inr (.inr (.inl h))
  · exact .inl h
  · exact .inr (.inr (.inr ⟨_, h⟩))

/-- Settles O14: of the outcomes of `step_cases` one is the end of the run, and its condition excludes the others. -/
theorem runEndsExactlyPastTheText : Obligations.RunEndsExactlyPastTheText := by
  intro s
  refine ⟨fun h => ?_, step_of_pc_eq_textEnd⟩
  obtain ⟨he, -⟩ | ⟨-, -, h'⟩ | ⟨-, -, ⟨-, t, h'⟩ | ⟨-, h'⟩⟩ := step_cases s
  · exact he
  all_goals
    rw [h'] at h
    cases h

/-- Settles O15: of the outcomes of `step_cases` one is a fetch fault, with `pc` in it. -/
theorem fetchFaultsExactly : Obligations.FetchFaultsExactly := by
  intro s p
  have hend : s.textEnd = s.cfg.textBase.toNat + 4 * s.cfg.textLen := rfl
  rw [← hend]
  constructor
  · intro h
    obtain ⟨-, h'⟩ | ⟨hne, hout, h'⟩ | ⟨-, -, ⟨-, t, h'⟩ | ⟨-, h'⟩⟩ := step_cases s <;> rw [h'] at h <;> cases h
    rw [State.inText_eq_false_iff] at hout
    exact ⟨rfl, hne, by omega⟩
  · rintro ⟨rfl, hne, hout⟩
    refine step_of_pc_outside hne ?_
    rw [State.inText_eq_false_iff]
    omega

/-- Settles O16: of the outcomes of `step_cases` one is an illegal instruction, with `pc` and the word there. -/
theorem illegalInstructionsExactly : Obligations.IllegalInstructionsExactly := by
  intro s p w
  constructor
  · intro h
    obtain ⟨-, h'⟩ | ⟨-, -, h'⟩ | ⟨h4, ht, ⟨-, t, h'⟩ | ⟨hw, h'⟩⟩ := step_cases s <;> rw [h'] at h <;> cases h
    exact ⟨rfl, h4, ht, rfl, hw⟩
  · rintro ⟨rfl, h4, ht, rfl, hw⟩
    exact step_of_illegalWord h4 ht hw

/-- Settles O12: the four bytes are the word the step fetches, and it decodes to the instruction. -/
theorem stepRunsTheDecodedInstruction : Obligations.StepRunsTheDecodedInstruction := by
  intro s i h4 ht h
  obtain ⟨b0, b1, b2, b3, hb, hd⟩ := decode_eq_ok h
  cases hb
  exact step_of_decodeWord_ok h4 ht hd

/-- The bytes of an assembled word are the bytes it was assembled from (20_memory.md R42). -/
theorem byteOfWord_wordOfBytes (e : Endian) (b : Nat → Byte) {k : Nat} (hk : k < 4) :
    byteOfWord e (wordOfBytes e (b 0) (b 1) (b 2) (b 3)) k = b k := by
  apply BitVec.eq_of_getLsbD_eq
  intro i hi
  interval_cases k <;> cases e <;> interval_cases i <;> simp [wordOfBytes, byteOfWord, bitsFrom]

/-- Byte `k` of the word at an address is the byte `k` above it (20_memory.md R42). -/
theorem Memory.read_of_readWord (e : Endian) (mem : List Host.Cell) (a : Nat) {k : Nat} (hk : k < 4) :
    Memory.read mem (a + k) = byteOfWord e (Memory.readWord e mem a) k :=
  (byteOfWord_wordOfBytes e (fun j => Memory.read mem (a + j)) hk).symm

/-- Settles O13: with `TEXT_BASE` aligned, all four bytes of the fetched word lie in the text. -/
theorem fetchAssemblesTheBytesInOrder : Obligations.FetchAssemblesTheBytesInOrder := by
  rintro s w ⟨hbase, -⟩ h k hk
  obtain ⟨h4, ht, rfl⟩ := fetchWord_eq_next h
  have htk : s.inText (s.pc.toNat + k) = true := by
    rw [State.inText_iff, State.textEnd] at ht ⊢
    omega
  rw [State.readByte, if_pos htk, Memory.read_of_readWord s.cfg.insnEndian s.mem s.pc.toNat hk]
  constructor <;>
    · intro he
      rw [he]
      rfl

end Sys2Proof.Machine
end

section
/-! PROOFS. Runs: what every step keeps, how far a run goes and how it stops (10_state.md R32, 60_exceptions.md R153,
70_reset_and_hazards.md R173, R174). -/

namespace Sys2Proof.Machine

/-- Settles O41: reset has an empty text at address 0 and nothing in memory. -/
theorem resetIsWellFormed : Obligations.ResetIsWellFormed :=
  ⟨⟨by decide, rfl, by simp [State.reset], by decide, by decide, by decide⟩, rfl, rfl⟩

section
variable {s t : State}

/-- What a step that answers a next state leaves as it was, and where it goes on (10_state.md R26, R28, R32). -/
theorem step_frame (h : step s = .next t) : t.cfg = s.cfg ∧ t.mem = s.mem ∧ t.xerSo = s.xerSo ∧ t.pc = s.pc + 4#64 := by
  obtain ⟨w, i, -, -, hx⟩ := step_eq_next h
  have hs := exec_sameBeside hx
  exact ⟨hs.cfg, exec_mem hx, hs.xerSo, exec_pc hx⟩

/-- The text and its end depend on the launch parameters alone. -/
theorem textEnd_eq_of_cfg_eq (h : t.cfg = s.cfg) : t.textEnd = s.textEnd := by
  rw [State.textEnd, State.textEnd, h]

theorem inText_eq_of_cfg_eq (h : t.cfg = s.cfg) (a : Nat) : t.inText a = s.inText a := by
  rw [State.inText, State.inText, textEnd_eq_of_cfg_eq h, h]

/-- A step that answers a next state started at an aligned address of the text. -/
theorem pc_of_step_eq_next (h : step s = .next t) : s.pc.toNat % 4 = 0 ∧ s.inText s.pc.toNat = true := by
  obtain ⟨w, i, hw, -⟩ := step_eq_next h
  obtain ⟨h4, ht, -⟩ := fetchWord_eq_next hw
  exact ⟨h4, ht⟩

/-- Below the end of the text a whole word is left: base, end and `pc` are multiples of 4 apart. -/
theorem State.Wf.pc_add_four_le (hs : s.Wf) (h : s.pc.toNat < s.textEnd) : s.pc.toNat + 4 ≤ s.textEnd := by
  have := hs.legal.1
  have := hs.pcAligned
  rw [State.textEnd] at h ⊢
  omega

/-- In a run `pc` does not wrap: the text ends below 2^64 (20_memory.md R40). -/
theorem State.Wf.toNat_pc_step (hs : s.Wf) (h : step s = .next t) : t.pc.toNat = s.pc.toNat + 4 := by
  have hend := hs.pc_add_four_le (State.inText_iff.1 (pc_of_step_eq_next h).2).2
  obtain ⟨-, hlegal⟩ := hs.legal
  obtain ⟨-, -, -, hpc⟩ := step_frame h
  rw [State.textEnd] at hend
  rw [hpc, BitVec.toNat_add, show (4#64).toNat = 4 from rfl]
  omega

/-- Settles O40: parameters and memory are kept, and `pc` moves on by a whole word inside the text. -/
theorem stepKeepsWellFormedness : Obligations.StepKeepsWellFormedness := by
  intro s t hs h
  obtain ⟨hcfg, hmem, -, -⟩ := step_frame h
  have hpc := hs.toNat_pc_step h
  have hend := hs.pc_add_four_le (State.inText_iff.1 (pc_of_step_eq_next h).2).2
  refine ⟨hcfg ▸ hs.legal, hmem ▸ hs.memWf, fun c hc => ?_, ?_, ?_, ?_⟩
  · rw [inText_eq_of_cfg_eq hcfg]
    exact hs.memInText c (hmem ▸ hc)
  · have := hs.pcAligned
    omega
  · have := hs.pcLow
    rw [hcfg]
    omega
  · rw [textEnd_eq_of_cfg_eq hcfg]
    omega

end

/-- Settles O39: every single step keeps them (`step_frame`). -/
theorem stepsKeepParametersAndText : Obligations.StepsKeepParametersAndText := by
  intro k
  induction k with
  | zero =>
    rintro s _ rfl
    exact ⟨rfl, rfl, rfl⟩
  | succ k ih =>
    rintro s t ⟨u, hu, hr⟩
    obtain ⟨hcfg, hmem, hso, -⟩ := step_frame hu
    obtain ⟨hcfg', hmem', hso'⟩ := ih u t hr
    exact ⟨hcfg'.trans hcfg, hmem'.trans hmem, hso'.trans hso⟩

section
variable {k : Nat} {s t : State}

/-- The invariant holds all along a run, and `k` steps move `pc` on by `4k`. -/
theorem State.Wf.of_reaches (hs : s.Wf) (h : reaches k s t) : t.Wf ∧ t.pc.toNat = s.pc.toNat + 4 * k := by
  induction k generalizing s with
  | zero =>
    cases h
    exact ⟨hs, rfl⟩
  | succ k ih =>
    obtain ⟨u, hu, hr⟩ := h
    obtain ⟨ht, hpc⟩ := ih (stepKeepsWellFormedness s u hs hu) hr
    rw [hpc, hs.toNat_pc_step hu]
    exact ⟨ht, by omega⟩

/-- One more step at the end of a run. -/
theorem reaches_succ_of_step {u : State} (h : reaches k s t) (hu : step t = .next u) : reaches (k + 1) s u := by
  induction k generalizing s with
  | zero =>
    cases h
    exact ⟨u, hu, rfl⟩
  | succ k ih =>
    obtain ⟨v, hv, hr⟩ := h
    exact ⟨v, hv, ih hr⟩

/-- The words left, as the distance to the end of the text. -/
theorem State.Wf.pc_add_wordsLeft (hs : s.Wf) : s.pc.toNat + 4 * s.wordsLeft = s.textEnd := by
  have := hs.legal.1
  have := hs.pcAligned
  have := hs.pcHigh
  rw [State.wordsLeft]
  rw [State.textEnd] at *
  omega

/-- The word at `pc` after `k` steps is word `k` of the text from where the run started. -/
theorem readWord_of_reaches (hs : s.Wf) (h : reaches k s t) :
    Memory.readWord t.cfg.insnEndian t.mem t.pc.toNat = s.wordAhead k := by
  obtain ⟨hcfg, hmem, -⟩ := stepsKeepParametersAndText k s t h
  rw [(hs.of_reaches h).2, hcfg, hmem]
  rfl

/-- After fewer steps than words left `pc` is an aligned address of the text. -/
theorem inText_of_reaches (hs : s.Wf) (h : reaches k s t) (hk : k < s.wordsLeft) :
    t.pc.toNat % 4 = 0 ∧ t.inText t.pc.toNat = true := by
  obtain ⟨ht, hpc⟩ := hs.of_reaches h
  have hend := hs.pc_add_wordsLeft
  refine ⟨ht.pcAligned, State.inText_iff.2 ⟨ht.pcLow, ?_⟩⟩
  rw [textEnd_eq_of_cfg_eq (stepsKeepParametersAndText k s t h).1, hpc]
  omega

/-- While the words ahead are legal the run goes on (70_reset_and_hazards.md R173). -/
theorem exists_reaches_of_legal (hs : s.Wf) (hk : k ≤ s.wordsLeft)
    (h : ∀ j, j < k → legalWord s.cfg.xoHi (s.wordAhead j) = true) : ∃ t, reaches k s t := by
  induction k with
  | zero => exact ⟨s, rfl⟩
  | succ k ih =>
    obtain ⟨t, ht⟩ := ih (by omega) fun j hj => h j (by omega)
    obtain ⟨h4, hin⟩ := inText_of_reaches hs ht (by omega)
    have hw := h k (by omega)
    rw [← readWord_of_reaches hs ht, ← (stepsKeepParametersAndText k s t ht).1] at hw
    obtain ⟨u, hu⟩ := step_of_legalWord h4 hin hw
    exact ⟨u, reaches_succ_of_step ht hu⟩

end

/-- Settles O43: the invariant holds at the end of the run, and it excludes both conditions of a fetch fault. -/
theorem noFetchFaultInARun : Obligations.NoFetchFaultInARun := by
  intro k s t p hs hr h
  have ht := (hs.of_reaches hr).1
  obtain ⟨-, -, hout⟩ := (fetchFaultsExactly t p).1 h
  have h4 := ht.pcAligned
  have hlow := ht.pcLow
  have hhigh := ht.pcHigh
  rw [State.textEnd] at hhigh
  omega

/-- Settles O44: the invariant keeps `pc`, which is `4k` on, at or below the end of the text. -/
theorem runsTerminate : Obligations.RunsTerminate := by
  intro k s t hs hr
  obtain ⟨ht, hpc⟩ := hs.of_reaches hr
  have hend := hs.pc_add_wordsLeft
  have hhigh := ht.pcHigh
  have hlow := hs.pcLow
  rw [textEnd_eq_of_cfg_eq (stepsKeepParametersAndText k s t hr).1, hpc] at hhigh
  refine ⟨by omega, ?_, hpc⟩
  rw [State.textEnd] at hend
  omega

/-- Settles O45: the run goes on to the last word, and the address after it is the end of the text. -/
theorem legalTextRunsToItsEnd : Obligations.LegalTextRunsToItsEnd := by
  intro s hs hl
  obtain ⟨t, ht⟩ := exists_reaches_of_legal hs le_rfl hl
  have hpc : t.pc.toNat = s.textEnd := by rw [(hs.of_reaches ht).2, hs.pc_add_wordsLeft]
  refine ⟨t, ht, hpc, step_of_pc_eq_textEnd ?_⟩
  rw [textEnd_eq_of_cfg_eq (stepsKeepParametersAndText _ s t ht).1, hpc]

/-- Settles O46: the run goes on to the illegal word, and the step there raises it. -/
theorem firstIllegalWordStopsTheRun : Obligations.FirstIllegalWordStopsTheRun := by
  intro s k hs hk hl hill
  obtain ⟨t, ht⟩ := exists_reaches_of_legal hs hk.le hl
  obtain ⟨h4, hin⟩ := inText_of_reaches hs ht hk
  have hpc : t.pc = s.pc + BitVec.ofNat 64 (4 * k) := by
    apply BitVec.eq_of_toNat_eq
    have := t.pc.isLt
    rw [(hs.of_reaches ht).2] at this
    rw [(hs.of_reaches ht).2, BitVec.toNat_add, BitVec.toNat_ofNat, Nat.add_mod_mod, Nat.mod_eq_of_lt this]
  rw [← readWord_of_reaches hs ht, ← (stepsKeepParametersAndText k s t ht).1] at hill
  rw [← hpc, ← readWord_of_reaches hs ht]
  exact ⟨t, ht, step_of_illegalWord h4 hin hill⟩

end Sys2Proof.Machine
end

section
/-! PROOFS. Canonical memories, the launch, and a word placed for the next step (20_memory.md R40, R42,
70_reset_and_hazards.md R170). -/

namespace Sys2Proof.Machine

@[simp] theorem Memory.read_cons_self (a : Nat) (v : Byte) (m : List Host.Cell) : Memory.read ((a, v) :: m) a = v :=
  if_pos rfl

theorem Memory.read_cons_of_ne {a x : Nat} (h : x ≠ a) (v : Byte) (m : List Host.Cell) :
    Memory.read ((a, v) :: m) x = Memory.read m x :=
  if_neg h

/-- Below the first listed address a canonical memory reads as if nothing were listed. -/
theorem Memory.read_lt_head {a x : Nat} {v : Byte} {m : List Host.Cell} (h : Memory.wf ((a, v) :: m) = true) (hx : x < a) :
    Memory.read ((a, v) :: m) x = Memory.unlisted := by
  obtain ⟨-, habove, -⟩ := Memory.wf_cons h
  rw [Memory.read_cons_of_ne hx.ne]
  exact Memory.read_below fun c hc => hx.trans (habove c hc)

/-- Of two canonical memories that read the same, neither begins below the other: its first byte would read as unlisted. -/
theorem Memory.head_le_of_read_eq {a b : Nat} {v u : Byte} {m n : List Host.Cell} (hm : Memory.wf ((a, v) :: m) = true)
    (hn : Memory.wf ((b, u) :: n) = true) (h : ∀ x, Memory.read ((a, v) :: m) x = Memory.read ((b, u) :: n) x) : b ≤ a := by
  by_contra hab
  have hv := h a
  rw [Memory.read_cons_self, Memory.read_lt_head hn (Nat.not_le.1 hab)] at hv
  exact (Memory.wf_cons hm).1 hv

/-- Settles O48, by induction on both lists: the first addresses are equal, so the first bytes are, and the tails read the
same. -/
theorem canonicalMemoryIsUnique : Obligations.CanonicalMemoryIsUnique := by
  intro m
  induction m with
  | nil =>
    rintro (_ | ⟨⟨b, u⟩, n⟩) - hn h
    · rfl
    · have hu := h b
      rw [Memory.read_cons_self] at hu
      exact absurd hu.symm (Memory.wf_cons hn).1
  | cons c m ih =>
    obtain ⟨a, v⟩ := c
    rintro (_ | ⟨⟨b, u⟩, n⟩) hm hn h
    · have hv := h a
      rw [Memory.read_cons_self] at hv
      exact absurd hv (Memory.wf_cons hm).1
    · obtain rfl : a = b :=
        Nat.le_antisymm (Memory.head_le_of_read_eq hn hm fun x => (h x).symm) (Memory.head_le_of_read_eq hm hn h)
      obtain rfl : v = u := by simpa using h a
      obtain ⟨-, ham, hm'⟩ := Memory.wf_cons hm
      obtain ⟨-, han, hn'⟩ := Memory.wf_cons hn
      rw [ih n hm' hn' fun x => ?_]
      by_cases hx : x = a
      · rw [hx, Memory.read_below ham, Memory.read_below han]
      · simpa [Memory.read_cons_of_ne hx] using h x

/-- A word depends on its four bytes alone (20_memory.md R42). -/
theorem Memory.readWord_congr {m n : List Host.Cell} (e : Endian) {a : Nat}
    (h : ∀ x, x < a + 4 → Memory.read m x = Memory.read n x) : Memory.readWord e m a = Memory.readWord e n a := by
  simp only [Memory.readWord, h a (by omega), h (a + 1) (by omega), h (a + 2) (by omega), h (a + 3) (by omega)]

/-- A text write puts word `k` of the text at its place (20_memory.md R40). -/
theorem Memory.readWord_writeText (e : Endian) (ws : List Insn) {m : List Host.Cell} (hm : Memory.wf m = true) (a k : Nat)
    (hk : k < ws.length) : Memory.readWord e (Memory.writeText e m a ws) (a + 4 * k) = ws[k] := by
  induction ws generalizing m a k with
  | nil => cases hk
  | cons w ws ih =>
    have hw := Memory.wf_writeWord e a w hm
    cases k with
    | zero =>
      rw [Nat.mul_zero, Nat.add_zero, Memory.writeText,
        Memory.readWord_congr e fun x hx => Memory.read_writeText_below hw hx]
      exact Memory.readWord_writeWord_same e a w hm
    | succ k =>
      rw [show a + 4 * (k + 1) = a + 4 + 4 * k by omega]
      exact ih hw (a + 4) k (Nat.lt_of_succ_lt_succ hk)

/-- Settles O42: the text is written into an empty memory, so it is all that memory lists. -/
theorem launchPlacesTheText : Obligations.LaunchPlacesTheText := by
  rintro x e base text gpr crf so _ rfl h4 hfit
  refine ⟨⟨⟨h4, hfit⟩, Memory.wf_writeText e text _ rfl, fun c hc => ?_, h4, le_rfl, Nat.le_add_right _ _⟩,
    rfl, rfl, rfl, rfl, rfl, ?_, fun k hk => Memory.readWord_writeText e text rfl _ k hk⟩
  · exact State.inText_iff.2 ((Memory.mem_writeText hc).resolve_right (List.not_mem_nil))
  · simp [State.wordsLeft, State.textEnd, launch]

/-- An address with its two low bits cleared is a multiple of 4. -/
theorem toNat_and_not_three_mod_four (x : Word) : (x &&& ~~~3#64).toNat % 4 = 0 := by
  have h : (x &&& ~~~3#64) &&& 3#64 = 0#64 := by
    rw [BitVec.and_assoc, show ~~~3#64 &&& 3#64 = 0#64 from rfl, BitVec.and_zero]
  rw [← Nat.and_two_pow_sub_one_eq_mod _ 2]
  exact congrArg BitVec.toNat h

/-- The state whose text is one word, at `pc` brought down to a multiple of 4 (log 23). -/
def State.withOneWordText (s : State) (insn : Insn) : State :=
  { s with
    pc := s.pc &&& ~~~3#64
    cfg := { s.cfg with textBase := s.pc &&& ~~~3#64, textLen := 1 }
    mem := Memory.writeWord s.cfg.insnEndian [] (s.pc &&& ~~~3#64).toNat insn }

section
variable {s : State} {insn : Insn}

/-- At an aligned address of the text, placing a word writes its four bytes and nothing else (log 23). -/
theorem placeWord_of_inText (ht : s.inText s.pc.toNat = true) (h4 : s.pc.toNat % 4 = 0) :
    s.placeWord insn = s.withMem (Memory.writeWord s.cfg.insnEndian s.mem s.pc.toNat insn) := by
  simp [State.placeWord, ht, h4, State.withMem]

/-- Anywhere else it makes the text that one word (log 23). -/
theorem placeWord_of_outside (h : ¬(s.inText s.pc.toNat = true ∧ s.pc.toNat % 4 = 0)) :
    s.placeWord insn = s.withOneWordText insn := by
  simp only [State.placeWord, Bool.and_eq_true, decide_eq_true_eq, if_neg h, State.withOneWordText]

/-- With another memory the fetch answers the word stored there instead. -/
theorem fetchWord_withMem (mem : List Host.Cell) (ht : s.inText s.pc.toNat = true) (h4 : s.pc.toNat % 4 = 0) :
    fetchWord (s.withMem mem) = .next (Memory.readWord s.cfg.insnEndian mem s.pc.toNat) :=
  fetchWord_of_inText (s := s.withMem mem) h4 ht

/-- The word of a one-word text is fetched. -/
theorem fetchWord_withOneWordText : fetchWord (s.withOneWordText insn) = .next insn := by
  have h4 : (s.withOneWordText insn).pc.toNat % 4 = 0 := toNat_and_not_three_mod_four s.pc
  have ht : (s.withOneWordText insn).inText (s.withOneWordText insn).pc.toNat = true := by
    rw [State.inText_iff, State.textEnd]
    simp [State.withOneWordText]
  rw [fetchWord_of_inText h4 ht]
  exact congrArg Host.Outcome.next (Memory.readWord_writeWord_same _ _ insn rfl)

/-- A placed word is fetched, in both cases (log 23). -/
theorem fetchWord_placeWord (hm : Memory.wf s.mem = true) : fetchWord (s.placeWord insn) = .next insn := by
  by_cases h : s.inText s.pc.toNat = true ∧ s.pc.toNat % 4 = 0
  · rw [placeWord_of_inText h.1 h.2, fetchWord_withMem _ h.1 h.2, Memory.readWord_writeWord_same _ _ _ hm]
  · rw [placeWord_of_outside h, fetchWord_withOneWordText]

/-- A byte reads as before when the memory put in reads as the old one there. -/
theorem State.readByte_withMem_of_read_eq {mem : List Host.Cell} {a : Nat} (h : Memory.read mem a = Memory.read s.mem a) :
    (s.withMem mem).readByte a = s.readByte a := by
  rw [State.readByte, State.readByte, ← h]
  rfl

/-- The registers and `XO_HI` are those before, in both cases. -/
theorem placeWord_registers :
    (s.placeWord insn).gpr = s.gpr ∧ (s.placeWord insn).crf = s.crf ∧ (s.placeWord insn).xerSo = s.xerSo ∧
      (s.placeWord insn).cfg.xoHi = s.cfg.xoHi := by
  by_cases h : s.inText s.pc.toNat = true ∧ s.pc.toNat % 4 = 0
  · rw [placeWord_of_inText h.1 h.2]
    exact ⟨rfl, rfl, rfl, rfl⟩
  · rw [placeWord_of_outside h]
    exact ⟨rfl, rfl, rfl, rfl⟩

end

/-- Settles O49: `withFetchWord` is `placeWord` of the word, and inside the text a word write changes its own bytes alone. -/
theorem placedWordIsFetched : Obligations.PlacedWordIsFetched := by
  intro s w hm hw
  rw [show s.withFetchWord 32 w = s.placeWord (BitVec.ofNat 32 w) by rw [State.withFetchWord, Nat.mod_eq_of_lt hw]]
  obtain ⟨hg, hc, hso, hx⟩ := placeWord_registers (s := s) (insn := BitVec.ofNat 32 w)
  refine ⟨fetchWord_placeWord hm, hg, hc, hso, hx, fun ht h4 => ?_⟩
  rw [placeWord_of_inText ht h4]
  exact ⟨rfl, rfl, fun a ha => State.readByte_withMem_of_read_eq (Memory.read_writeWord_other _ _ hm ha)⟩

end Sys2Proof.Machine
end

section
/-! PROOFS. What the instructions write, in closed form (40_crrweird.md R81 to R83, 41_mtcrweird.md R92, 42_crweird.md R102,
43_crweirder.md R110, 44_pseudo_ops.md R120 to R122). -/

namespace Sys2Proof.Machine

/-- The full mask and mode, `0b1111`, in the bitwise operators. -/
@[simp] theorem full_and (x : CrField) : 0b1111#4 &&& x = x := BitVec.allOnes_and
@[simp] theorem full_xor (x : CrField) : 0b1111#4 ^^^ x = ~~~x := BitVec.allOnes_xor
@[simp] theorem xor_full (x : CrField) : x ^^^ 0b1111#4 = ~~~x := BitVec.xor_allOnes

/-- The reduction of a match in closed form (00_scope.md R15). -/
theorem reduce1_match4 (m : Bool) (mask mode c : CrField) :
    reduce1 m (match4 mask mode c) =
      decide (if m then mask &&& ~~~(mode ^^^ c) ≠ 0#4 else mask = 0b1111#4 ∧ c = mode) := by
  cases m
  · simp [reduce1_false_match4]
  · simp [reduce1_true_eq, match4_eq_and_not_xor]

/-- A decided condition as a register value. -/
theorem zext64_decide (p : Prop) [Decidable p] : zext64 (decide p) = if p then 1#64 else 0#64 := by
  simp [zext64]

/-- The merged field in closed form: the match, joined for `M = 1` with the old bits outside `mask`. -/
theorem mergeField_eq_or (m : Bool) (mask n old : CrField) :
    mergeField m mask n old = n ||| if m then old &&& ~~~mask else 0#4 := by
  cases m <;> simp [mergeField]

/-- A match against four copies of one bit (41_mtcrweird.md R92). -/
theorem match4_replicate4 (mask mode : CrField) (b : Bool) :
    match4 mask mode (replicate4 b) = if b then mask &&& mode else mask &&& ~~~mode := by
  rw [match4_eq_and_not_xor]
  cases b
  · simp [replicate4]
  · simp [replicate4]

/-- The field that `mtcrweird` and the pseudo-ops write when the tested bit is `b` (41_mtcrweird.md R92). -/
def mtcrweirdField (m : Bool) (mask mode : CrField) (b : Bool) (old : CrField) : CrField :=
  (if b then mask &&& mode else mask &&& ~~~mode) ||| if m then old &&& ~~~mask else 0#4

section
variable {rt : GprNum} {bf bfa : CrfNum} {ra : GprNum} {bt : BitVec 5} {m : Bool} {mask mode : CrField} {rc : Bool}
  {s t : State}

/-- The field after `mtcrweird` and every pseudo-op, in closed form. -/
theorem readCrf_moveToCr :
    (moveToCr bf ra m mask mode s).readCrf bf = mtcrweirdField m mask mode (lsbOf (s.readRaOrZero ra)) (s.readCrf bf) := by
  simp only [moveToCr, State.readCrf_advance, State.readCrf_writeCrf, if_true, mergeField_eq_or, match4_replicate4,
    mtcrweirdField]

/-- The general register after `crrweird`, in closed form (40_crrweird.md R83). -/
theorem readGpr_of_exec_crrweird_eq_ite (h : exec (.crrweird rt bfa m mask mode rc) s = .next t) :
    t.readGpr rt =
      if (if m then mask &&& ~~~(mode ^^^ s.readCrf bfa) ≠ 0#4 else mask = 0b1111#4 ∧ s.readCrf bfa = mode)
      then 1#64 else 0#64 := by
  rw [readGpr_of_exec_crrweird h, reduce1_match4, zext64_decide]

/-- `CRF[0]` after the record form: GT or EQ by the result, and `XER_SO` (40_crrweird.md R82). -/
theorem readCrf_zero_of_exec_crrweird_record (h : exec (.crrweird rt bfa m mask mode true) s = .next t) :
    t.readCrf 0#3 = concat4 false (reduce1 m (match4 mask mode (s.readCrf bfa)))
      (!reduce1 m (match4 mask mode (s.readCrf bfa))) s.xerSo := by
  cases h
  simp [analyse_zext64]

/-- Register and field of the record form, for a result of 1 and of 0 (40_crrweird.md R82, decision D6). -/
theorem register_and_record_of_result {p : Prop} [Decidable p] {v : Word} {c : CrField} {so : Bool}
    (hv : v = if p then 1#64 else 0#64) (hc : c = concat4 false (decide p) (!decide p) so) :
    if p then v = 1#64 ∧ c = (if so then 0b0101#4 else 0b0100#4) else v = 0#64 ∧ c = (if so then 0b0011#4 else 0b0010#4) := by
  subst hv hc
  by_cases hp : p <;> cases so <;> simp [hp, concat4]

/-- A general register outside the write set keeps its value (70_reset_and_hazards.md R177). -/
theorem readGpr_of_not_mem_writesGpr {i : Instr} (h : exec i s = .next t) {n : GprNum} (hn : n ∉ writesGpr i) :
    t.readGpr n = s.readGpr n := by
  cases i with
  | crrweird rt bfa m mask mode rc =>
    have hne : n ≠ rt := by simpa [writesGpr] using hn
    cases h
    cases rc <;> simp [hne]
  | _ =>
    cases h
    rfl

/-- A CR field outside the write set keeps its value (70_reset_and_hazards.md R177). -/
theorem readCrf_of_not_mem_writesCrf {i : Instr} (h : exec i s = .next t) {f : CrfNum} (hf : f ∉ writesCrf i) :
    t.readCrf f = s.readCrf f := by
  cases i with
  | crrweird rt bfa m mask mode rc =>
    cases h
    cases rc
    · simp
    · have hne : f ≠ 0#3 := by simpa [writesCrf] using hf
      simp [hne]
  | _ =>
    cases h
    simp only [writesCrf, List.mem_singleton] at hf
    simp [moveToCr, hf]

end

/-- Settles O20: the result by the closed form of the reduction, the rest by the write sets. -/
theorem crrweirdWritesTheReducedBit : Obligations.CrrweirdWritesTheReducedBit := by
  intro rt bfa m mask mode s
  obtain ⟨t, h⟩ := exec_eq_next (.crrweird rt bfa m mask mode false) s
  refine ⟨t, h, readGpr_of_exec_crrweird_eq_ite h, fun n hn => ?_, fun f => ?_, exec_sameBeside h, exec_pc h⟩
  · exact readGpr_of_not_mem_writesGpr h (by simpa [writesGpr] using hn)
  · exact readCrf_of_not_mem_writesCrf h (by simp [writesCrf])

/-- Settles O21: the register as without the record; `CRF[0]` from the same result, which is of the old source field. -/
theorem crrweirdRecordsInField0 : Obligations.CrrweirdRecordsInField0 := by
  intro rt bfa m mask mode s
  obtain ⟨t, h⟩ := exec_eq_next (.crrweird rt bfa m mask mode true) s
  refine ⟨t, h, ?_, fun n hn => ?_, fun f hf => ?_, exec_sameBeside h, exec_pc h⟩
  · refine register_and_record_of_result (readGpr_of_exec_crrweird_eq_ite h) ?_
    rw [readCrf_zero_of_exec_crrweird_record h, reduce1_match4]
  · exact readGpr_of_not_mem_writesGpr h (by simpa [writesGpr] using hn)
  · exact readCrf_of_not_mem_writesCrf h (by simpa [writesCrf] using hf)

/-- The bits of a mask with bit `k` alone. -/
theorem bitAt_single_mask {k i : Nat} (hk : k < 4) (hi : i < 4) : bitAt (8#4 >>> k) i = decide (i = k) := by
  interval_cases k <;> interval_cases i <;> rfl

/-- Mask bit `k` alone: the OR of the match is the match of bit `k` (40_crrweird.md R83 case (3)). -/
theorem reduce1_true_match4_single (mode c : CrField) {k : Nat} (hk : k < 4) :
    reduce1 true (match4 (8#4 >>> k) mode c) = (bitAt c k == bitAt mode k) := by
  simp only [reduce1, if_true, bitAt_match4, matchBit, Nat.reduceLT, bitAt_single_mask hk]
  interval_cases k <;> simp [Bool.beq_comm]

/-- Settles O22: the reduction tests that one bit. -/
theorem crrweirdTestsOneBit : Obligations.CrrweirdTestsOneBit := by
  intro rt bfa mode k s hk
  refine ⟨_, rfl, ?_⟩
  rw [readGpr_of_exec_crrweird rfl, reduce1_true_match4_single mode _ hk, beq_eq_decide, zext64_decide]

/-- Settles O24: the tested bit is 1 exactly when the field `RA` is not 0 and its register is odd. -/
theorem mtcrweirdClosedForm : Obligations.MtcrweirdClosedForm := by
  intro bf ra m mask mode s
  refine ⟨_, rfl, ?_⟩
  rw [readCrf_moveToCr, mtcrweirdField, lsbOf_readRaOrZero]
  by_cases hra : ra = 0#5 <;> simp [hra]

/-- Settles O26: the tested bit is all that `mtcrweird` reads of the general registers. -/
theorem mtcrweirdUsesOnlyTheLowBit : Obligations.MtcrweirdUsesOnlyTheLowBit := by
  intro bf ra m mask mode s t v hv h
  cases h
  refine congrArg Host.Outcome.next (moveToCr_writeGpr bf m mask mode ?_)
  rw [lsbOf_readRaOrZero, lsbOf_readRaOrZero, State.readGpr_writeGpr, if_pos rfl, hv]

/-- Settles O28: the match and the merge in closed form; under the full mask no old bit is left. -/
theorem crweirdClosedForm : Obligations.CrweirdClosedForm := by
  intro bf bfa m mask mode s
  obtain ⟨t, h⟩ := exec_eq_next (.crweird bf bfa m mask mode) s
  have hfield : t.readCrf bf = (mask &&& ~~~(mode ^^^ s.readCrf bfa)) ||| if m then s.readCrf bf &&& ~~~mask else 0#4 := by
    rw [readCrf_of_exec_crweird h, mergeField_eq_or, match4_eq_and_not_xor]
  refine ⟨t, h, hfield, ?_, ?_⟩
  · rintro rfl rfl
    rw [hfield]
    cases m <;> simp
  · rintro rfl rfl
    rw [hfield]
    cases m <;> simp

/-- Settles O29: the replaced bit is bit `BT / 8` of field `BT mod 8`, and the result is the reduction in closed form. -/
theorem crweirderSetsOneBit : Obligations.CrweirderSetsOneBit := by
  intro bt bfa m mask mode s
  refine ⟨_, rfl, fun bf hbf i hi => ?_⟩
  obtain rfl : bf = btField bt := BitVec.eq_of_toNat_eq (hbf.trans (toNat_btField bt).symm)
  rw [readCrf_of_exec_crweirder rfl, bitAt_setCrBit _ _ _ hi, toNat_btBit, reduce1_match4]

/-- Settles O31: each pseudo-op writes the field of `mtcrweird` on the bit 0 (44_pseudo_ops.md R120 to R122). -/
theorem pseudoOpsLoadSetAndClear : Obligations.PseudoOpsLoadSetAndClear := by
  intro bf v s
  have hz : lsbOf (s.readRaOrZero 0#5) = false := by simp [lsbOf_readRaOrZero]
  refine ⟨⟨_, rfl, ?_⟩, ⟨_, rfl, ?_⟩, ⟨_, rfl, ?_⟩⟩ <;> rw [readCrf_moveToCr, hz, mtcrweirdField]
  · simp
  · rw [BitVec.not_zero, BitVec.and_allOnes]
    refine crField_ext fun i hi => ?_
    cases h : bitAt v i <;> simp [bitAt_not _ hi, h]
  · simp

/-- Settles O32: a pseudo-op is defined as its expansion, and any other instruction expands to itself. -/
theorem pseudoOpsActAsTheirExpansions : Obligations.PseudoOpsActAsTheirExpansions := by
  intro i s
  cases i <;> rfl

/-- Settles O33: the six write no general register and only the named field. -/
theorem crWritersChangeOneField : Obligations.CrWritersChangeOneField := by
  intro bf bfa ra bt m mask mode i f s t hi h
  have hw : writesGpr i = [] ∧ writesCrf i = [f] := by
    rcases hi with ⟨rfl, rfl | rfl | rfl | rfl | rfl⟩ | ⟨hf, rfl⟩
    case inr =>
      obtain rfl : f = btField bt := BitVec.eq_of_toNat_eq (hf.trans (toNat_btField bt).symm)
      exact ⟨rfl, rfl⟩
    all_goals exact ⟨rfl, rfl⟩
  obtain ⟨hg, hc⟩ := hw
  refine ⟨fun n => ?_, fun g hne => ?_, exec_sameBeside h⟩
  · exact readGpr_of_not_mem_writesGpr h (by simp [hg])
  · exact readCrf_of_not_mem_writesCrf h (by simpa [hc] using hne)

/-- Settles O34: the write set of `crrweird` is `RT`, and `CRF[0]` when `Rc = 1`. -/
theorem crrweirdChangesOneRegister : Obligations.CrrweirdChangesOneRegister := by
  intro rt bfa m mask mode rc s t h
  refine ⟨fun n hn => ?_, fun g => ?_, exec_sameBeside h⟩
  · exact readGpr_of_not_mem_writesGpr h (by simpa [writesGpr] using hn)
  · by_cases hg : rc = true ∧ g = 0#3
    · exact .inl hg
    · refine .inr (readCrf_of_not_mem_writesCrf h ?_)
      cases rc
      · simp [writesCrf]
      · simpa [writesCrf] using hg

end Sys2Proof.Machine
end

section
/-! PROOFS. Read and write sets, what a step changes, and the view of the eight CR fields (70_reset_and_hazards.md R177,
10_state.md R21, R24, R25). -/

namespace Sys2Proof.Machine

/-- What `mtcrweird` writes depends on the tested bit, and on the old field for `M = 1` alone (70_reset_and_hazards.md R177). -/
theorem readCrf_moveToCr_congr {bf : CrfNum} {ra : GprNum} {m : Bool} {mask mode : CrField} {s s' : State}
    (hra : s.readRaOrZero ra = s'.readRaOrZero ra) (hbf : m = true → s.readCrf bf = s'.readCrf bf) :
    (moveToCr bf ra m mask mode s).readCrf bf = (moveToCr bf ra m mask mode s').readCrf bf := by
  rw [readCrf_moveToCr, readCrf_moveToCr, hra]
  cases m
  · rfl
  · rw [hbf rfl]

/-- The merged field does not depend on the old one for `M = 0`. -/
theorem mergeField_congr {m : Bool} {old old' : CrField} (mask n : CrField) (h : m = true → old = old') :
    mergeField m mask n old = mergeField m mask n old' := by
  cases m
  · rfl
  · rw [h rfl]

/-- States that agree on the registers `mtcrweird` reads agree on `(RA|0)`. -/
theorem readRaOrZero_congr {ra : GprNum} {s s' : State} (h : ra ≠ 0#5 → s.readGpr ra = s'.readGpr ra) :
    s.readRaOrZero ra = s'.readRaOrZero ra := by
  by_cases hra : ra = 0#5
  · simp [State.readRaOrZero, hra]
  · simp [State.readRaOrZero, hra, h hra]

/-- An instruction that writes one field and no register agrees on its writes when that field is the same. -/
theorem agreeOnWrites_of_one_field {i : Instr} {f : CrfNum} {t t' : State} (hg : writesGpr i = []) (hc : writesCrf i = [f])
    (h : t.readCrf f = t'.readCrf f) : AgreeOnWrites i t t' :=
  ⟨by simp [hg], by simpa [hc] using h⟩

/-- What an instruction writes depends only on what it reads (the table of 70_reset_and_hazards.md R177). -/
theorem agreeOnWrites_of_exec {i : Instr} {s s' t t' : State} (h : exec i s = .next t) (h' : exec i s' = .next t')
    (hr : AgreeOnReads i s s') : AgreeOnWrites i t t' := by
  obtain ⟨hg, hc, hso⟩ := hr
  cases i with
  | crrweird rt bfa m mask mode rc =>
    have hbfa : s.readCrf bfa = s'.readCrf bfa := hc bfa (by simp [readsCrf])
    constructor
    · simp [writesGpr, readGpr_of_exec_crrweird h, readGpr_of_exec_crrweird h', hbfa]
    · cases rc
      · simp [writesCrf]
      · simp [writesCrf, readCrf_zero_of_exec_crrweird_record h, readCrf_zero_of_exec_crrweird_record h', hbfa, hso rfl]
  | mtcrweird bf ra m mask mode =>
    cases h
    cases h'
    refine agreeOnWrites_of_one_field rfl rfl (readCrf_moveToCr_congr (readRaOrZero_congr fun hra => ?_) fun hm => ?_)
    · exact hg ra (by simp [readsGpr, hra])
    · exact hc bf (by simp [readsCrf, hm])
  | crweirder bt bfa m mask mode =>
    have hbfa : s.readCrf bfa = s'.readCrf bfa := hc bfa (by simp [readsCrf])
    have hbt : s.readCrf (btField bt) = s'.readCrf (btField bt) := hc _ (by simp [readsCrf])
    refine agreeOnWrites_of_one_field rfl rfl ?_
    rw [readCrf_of_exec_crweirder h, readCrf_of_exec_crweirder h', hbfa, hbt]
  | crweird bf bfa m mask mode =>
    have hbfa : s.readCrf bfa = s'.readCrf bfa := hc bfa (by cases m <;> simp [readsCrf])
    refine agreeOnWrites_of_one_field rfl rfl ?_
    rw [readCrf_of_exec_crweird h, readCrf_of_exec_crweird h', hbfa]
    exact mergeField_congr _ _ fun hm => hc bf (by simp [readsCrf, hm])
  | mtcri bf mode =>
    cases h
    cases h'
    exact agreeOnWrites_of_one_field rfl rfl (readCrf_moveToCr_congr rfl nofun)
  | mtcrset bf mask =>
    cases h
    cases h'
    exact agreeOnWrites_of_one_field rfl rfl (readCrf_moveToCr_congr rfl fun _ => hc bf (by simp [readsCrf]))
  | mtcrclr bf mask =>
    cases h
    cases h'
    exact agreeOnWrites_of_one_field rfl rfl (readCrf_moveToCr_congr rfl fun _ => hc bf (by simp [readsCrf]))

/-- Settles O35: the two tables, one lemma each for what is read and for each kind of what is written. -/
theorem readAndWriteSets : Obligations.ReadAndWriteSets :=
  ⟨fun _ _ _ _ _ h h' hr => agreeOnWrites_of_exec h h' hr,
    fun _ _ _ h => ⟨fun _ hn => readGpr_of_not_mem_writesGpr h hn, fun _ hf => readCrf_of_not_mem_writesCrf h hf⟩⟩

/-- Only `crrweird` has a general register in its write set. -/
theorem eq_crrweird_of_mem_writesGpr {i : Instr} {n : GprNum} (h : n ∈ writesGpr i) :
    ∃ bfa m mask mode rc, i = .crrweird n bfa m mask mode rc := by
  cases i with
  | crrweird rt bfa m mask mode rc =>
    obtain rfl : n = rt := by simpa [writesGpr] using h
    exact ⟨bfa, m, mask, mode, rc, rfl⟩
  | _ => simp [writesGpr] at h

/-- Settles O36: the changed register is in the write set, so the instruction is a `crrweird`, whose result is one bit. -/
theorem onlyCrrweirdChangesARegister : Obligations.OnlyCrrweirdChangesARegister := by
  intro s t n h hn
  obtain ⟨w, i, hw, hd, hx⟩ := step_eq_next h
  have hmem : n ∈ writesGpr i := by
    by_contra hnot
    exact hn (readGpr_of_not_mem_writesGpr hx hnot)
  obtain ⟨bfa, m, mask, mode, rc, rfl⟩ := eq_crrweird_of_mem_writesGpr hmem
  refine ⟨⟨w, bfa, m, mask, mode, rc, hw, hd⟩, ?_⟩
  rw [readGpr_of_exec_crrweird hx]
  cases reduce1 m (match4 mask mode (s.readCrf bfa))
  · exact .inl rfl
  · exact .inr rfl

/-- Settles O37: what a step can write is what `exec_cases` lists. -/
theorem aStepChangesAtMostOneField : Obligations.AStepChangesAtMostOneField := by
  intro s t h
  obtain ⟨w, i, -, -, hx⟩ := step_eq_next h
  rcases exec_cases i s with ⟨rt, v, e⟩ | ⟨rt, v, c, e⟩ | ⟨f, c, e⟩ <;> rw [e] at hx <;> cases hx
  · exact ⟨⟨0#3, by simp⟩, ⟨rt, by simp +contextual⟩⟩
  · exact ⟨⟨0#3, by simp +contextual⟩, ⟨rt, by simp +contextual⟩⟩
  · exact ⟨⟨f, by simp +contextual⟩, ⟨0#5, by simp⟩⟩

/-- Settles O38, field by field: each of the eight stands alone in its four bits. -/
theorem fieldPositionsInTheCr : Obligations.FieldPositionsInTheCr := by
  intro s n
  have hn : n = 0#3 ∨ n = 1#3 ∨ n = 2#3 ∨ n = 3#3 ∨ n = 4#3 ∨ n = 5#3 ∨ n = 6#3 ∨ n = 7#3 := by revert n; decide
  unfold State.cr
  generalize s.readCrf = f
  refine BitVec.eq_of_getLsbD_eq fun i hi => ?_
  rcases hn with rfl | rfl | rfl | rfl | rfl | rfl | rfl | rfl <;> interval_cases i <;> simp [bitsFrom]

/-- The low bit of a register as a register value. -/
theorem zext64_lsbOf (v : Word) : zext64 (lsbOf v) = v &&& 1#64 := by
  apply BitVec.eq_of_toNat_eq
  rw [BitVec.toNat_and, show (1#64).toNat = 1 from rfl, Nat.and_one_is_mod, lsbOf_eq]
  rcases Nat.mod_two_eq_zero_or_one v.toNat with h | h <;> rw [h] <;> rfl

/-- Settles O47: the field gets four copies of the low bit, and the last of them is tested for 1. -/
theorem registerBitRoundTrip : Obligations.RegisterBitRoundTrip := by
  intro bf ra rt s hra
  obtain ⟨t, ht⟩ := exec_eq_next (.mtcrweird bf ra false 0b1111#4 0b1111#4) s
  obtain ⟨u, hu⟩ := exec_eq_next (.crrweird rt bf true 0b0001#4 0b0001#4 false) t
  refine ⟨t, u, ht, hu, ?_⟩
  have hfield : t.readCrf bf = replicate4 (lsbOf (s.readGpr ra)) := by
    rw [readCrf_of_exec_mtcrweird ht, mergeField_eq_or, match4_eq_and_not_xor, State.readRaOrZero, if_neg hra]
    simp
  have hbit := reduce1_true_match4_single 0b0001#4 (t.readCrf bf) (k := 3) (by decide)
  rw [hfield, bitAt_replicate4 _ (by decide), show bitAt 0b0001#4 3 = true from rfl, beq_true] at hbit
  rw [readGpr_of_exec_crrweird hu, hfield]
  exact (congrArg zext64 hbit).trans (zext64_lsbOf _)

end Sys2Proof.Machine
end

section
/-! PROOFS. The assembler: which lines assemble, and to which word (30_encoding.md R71 to R75,
44_pseudo_ops.md R120 to R122). -/

namespace Sys2Proof.Machine

/-! Each operand is read exactly when it is of its kind and in range (30_encoding.md R72, R74). -/

theorem isSome_gprOperand? (o : Operand) : (gprOperand? o).isSome = o.isGpr := by
  cases o <;> simp [gprOperand?, Operand.isGpr, apply_ite Option.isSome]

theorem isSome_raOperand? (o : Operand) : (raOperand? o).isSome = o.isRa := by
  cases o <;> simp [raOperand?, gprOperand?, Operand.isRa, apply_ite Option.isSome]

theorem isSome_crfOperand? (o : Operand) : (crfOperand? o).isSome = o.isCrf := by
  cases o <;> simp [crfOperand?, Operand.isCrf, apply_ite Option.isSome]

theorem isSome_btOperand? (o : Operand) : (btOperand? o).isSome = o.isBt := by
  cases o <;> simp [btOperand?, Operand.isBt, apply_ite Option.isSome]

theorem isSome_mOperand? (o : Operand) : (mOperand? o).isSome = o.isM := by
  cases o with
  | num n =>
    simp only [mOperand?, Operand.isM]
    rcases n with _ | _ | n <;> simp
  | _ => rfl

theorem isSome_maskModeOperand? (o : Operand) : (maskModeOperand? o).isSome = o.isMaskMode := by
  cases o <;> simp [maskModeOperand?, Operand.isMaskMode, apply_ite Option.isSome]

theorem isSome_nibbleOperand? (o : Operand) : (nibbleOperand? o).isSome = o.isNibble := by
  cases o <;> simp [nibbleOperand?, Operand.isNibble, apply_ite Option.isSome]

/-- A line of four operands answers exactly when each operand is read. -/
theorem isSome_fourOperands {α β γ δ : Type} {a : Option α} {b : Option β} {c : Option γ} {p : Option (δ × δ)}
    {isA isB isC isP : Bool} (ha : a.isSome = isA) (hb : b.isSome = isB) (hc : c.isSome = isC) (hp : p.isSome = isP)
    (f : α → β → γ → δ → δ → Instr) :
    (p.bind fun q => a.bind fun x => b.bind fun y => c.bind fun z => some (f x y z q.1 q.2)).isSome =
      (isA && isB && isC && isP) := by
  subst ha hb hc hp
  cases p <;> cases a <;> cases b <;> cases c <;> rfl

/-- A line of two operands answers exactly when each operand is read. -/
theorem isSome_twoOperands {α β : Type} {a : Option α} {b : Option β} {isA isB : Bool} (ha : a.isSome = isA)
    (hb : b.isSome = isB) (f : α → β → Instr) :
    (a.bind fun x => b.bind fun y => some (f x y)).isSome = (isA && isB) := by
  subst ha hb
  cases a <;> cases b <;> rfl

section
variable (o₁ o₂ o₃ o₄ : Operand) (mn : Mnemonic)

/-- The lines of four operands (30_encoding.md R71). -/
theorem isSome_assemble_four :
    (assemble ⟨mn, [o₁, o₂, o₃, o₄]⟩).isSome = (AsmLine.mk mn [o₁, o₂, o₃, o₄]).wellFormed := by
  have hm := isSome_mOperand? o₃
  have hmm := isSome_maskModeOperand? o₄
  cases mn with
  | crrweird =>
    exact isSome_fourOperands (isSome_gprOperand? o₁) (isSome_crfOperand? o₂) hm hmm fun rt bfa m k d =>
      .crrweird rt bfa m k d false
  | crrweirdDot =>
    exact isSome_fourOperands (isSome_gprOperand? o₁) (isSome_crfOperand? o₂) hm hmm fun rt bfa m k d =>
      .crrweird rt bfa m k d true
  | mtcrweird => exact isSome_fourOperands (isSome_crfOperand? o₁) (isSome_raOperand? o₂) hm hmm .mtcrweird
  | crweird => exact isSome_fourOperands (isSome_crfOperand? o₁) (isSome_crfOperand? o₂) hm hmm .crweird
  | crweirder => exact isSome_fourOperands (isSome_btOperand? o₁) (isSome_crfOperand? o₂) hm hmm .crweirder
  | mtcri => rfl
  | mtcrset => rfl
  | mtcrclr => rfl

/-- The lines of two operands (44_pseudo_ops.md R120 to R122). -/
theorem isSome_assemble_two : (assemble ⟨mn, [o₁, o₂]⟩).isSome = (AsmLine.mk mn [o₁, o₂]).wellFormed := by
  have h := isSome_twoOperands (isSome_crfOperand? o₁) (isSome_nibbleOperand? o₂)
  cases mn with
  | mtcri => exact h .mtcri
  | mtcrset => exact h .mtcrset
  | mtcrclr => exact h .mtcrclr
  | _ => rfl

end

/-- Settles O50: by the number of operands; a line of neither two nor four assembles to nothing and is not well-formed. -/
theorem assemblesExactlyTheWellFormedLines : Obligations.AssemblesExactlyTheWellFormedLines := by
  rintro ⟨mn, _ | ⟨o₁, _ | ⟨o₂, _ | ⟨o₃, _ | ⟨o₄, _ | ⟨o₅, l⟩⟩⟩⟩⟩⟩
  case cons.cons.nil => exact isSome_assemble_two o₁ o₂ mn
  case cons.cons.cons.cons.nil => exact isSome_assemble_four o₁ o₂ o₃ o₄ mn
  all_goals cases mn <;> rfl

/-! Operands in range, one value each. -/

section
variable {n k d : Nat}

theorem gprOperand?_reg (h : n < 32) : gprOperand? (.reg n) = some (BitVec.ofNat 5 n) := if_pos h
theorem raOperand?_reg (h : n < 32) : raOperand? (.reg n) = some (BitVec.ofNat 5 n) := if_pos h
theorem btOperand?_num (h : n < 32) : btOperand? (.num n) = some (BitVec.ofNat 5 n) := if_pos h
theorem nibbleOperand?_num (h : n < 16) : nibbleOperand? (.num n) = some (BitVec.ofNat 4 n) := if_pos h

/-- A CR field is written `N` or `crN` (30_encoding.md R74). -/
theorem crfOperand?_of_spelling {c : Nat → Operand} (hc : c = .num ∨ c = .crf) (h : n < 8) :
    crfOperand? (c n) = some (BitVec.ofNat 3 n) := by
  rcases hc with rfl | rfl <;> exact if_pos h

theorem mOperand?_num (h : n < 2) : mOperand? (.num n) = some (decide (n = 1)) := by
  interval_cases n <;> rfl

theorem maskModeOperand?_pair (hk : k < 16) (hd : d < 16) :
    maskModeOperand? (.pair k d) = some (BitVec.ofNat 4 k, BitVec.ofNat 4 d) := if_pos ⟨hk, hd⟩

end

/-- Settles O59: every operand is read, and the word is the sum of the fields of the CW-form. -/
theorem operandsFillTheirFields : Obligations.OperandsFillTheirFields := by
  rintro x c c' r bt bf bfa m k d rest hc hc' hr hbt hbf hbfa hm hk hd rfl
  have hbit : (decide (m = 1)).toNat = m := by interval_cases m <;> rfl
  refine ⟨?_, ?_, ?_, ?_, ?_⟩ <;>
    · simp only [assemble, maskModeOperand?_pair hk hd, mOperand?_num hm, gprOperand?_reg hr, raOperand?_reg hr,
        btOperand?_num hbt, crfOperand?_of_spelling hc hbf, crfOperand?_of_spelling hc hbfa, crfOperand?_of_spelling hc' hbfa,
        Option.bind_eq_bind, Option.bind_some, Option.pure_def, Option.map_some, Option.some.injEq, encode, toNat_cwForm,
        toNat_crweird_slot, BitVec.toNat_ofNat, Bool.toNat_false, Bool.toNat_true, hbit]
      omega

/-- The complement of a 4-bit number, as the assembler writes it for `mtcri` (44_pseudo_ops.md R120). -/
theorem ofNat_fifteen_sub {v : Nat} (h : v < 16) : BitVec.ofNat 4 (15 - v) = ~~~BitVec.ofNat 4 v := by
  apply BitVec.eq_of_toNat_eq
  simp only [BitVec.toNat_not, BitVec.toNat_ofNat]
  omega

/-- Settles O51: both lines assemble, the pseudo-op's to an instruction and the other to its expansion, and those have one
word. -/
theorem pseudoOpLinesAssembleAsTheirExpansions : Obligations.PseudoOpLinesAssembleAsTheirExpansions := by
  intro x bf v hbf hv
  have hn := crfOperand?_of_spelling (.inl rfl) hbf
  have hc := crfOperand?_of_spelling (.inr rfl) hbf
  have hi : assemble ⟨.mtcri, [.num bf, .num v]⟩ = some (.mtcri (BitVec.ofNat 3 bf) (BitVec.ofNat 4 v)) := by
    simp [assemble, hn, nibbleOperand?_num hv]
  have hs : assemble ⟨.mtcrset, [.num bf, .num v]⟩ = some (.mtcrset (BitVec.ofNat 3 bf) (BitVec.ofNat 4 v)) := by
    simp [assemble, hn, nibbleOperand?_num hv]
  have hr : assemble ⟨.mtcrclr, [.num bf, .num v]⟩ = some (.mtcrclr (BitVec.ofNat 3 bf) (BitVec.ofNat 4 v)) := by
    simp [assemble, hn, nibbleOperand?_num hv]
  refine ⟨?_, ?_, ?_, by rw [hi]; rfl, by rw [hs]; rfl, by rw [hr]; rfl⟩
  · rw [hi, assemble_mtcrweird_eq_some_iff.2 ⟨_, _, _, _, _, hn, raOperand?_reg_zero, mOperand?_num (by decide),
      maskModeOperand?_pair (by decide) (by omega), rfl⟩, Option.map_some, Option.map_some, ← encode_expand,
      ofNat_fifteen_sub hv]
    rfl
  · rw [hs, assemble_mtcrweird_eq_some_iff.2 ⟨_, _, _, _, _, hn, raOperand?_num_zero, mOperand?_num (by decide),
      maskModeOperand?_pair hv (by decide), rfl⟩, Option.map_some, Option.map_some, ← encode_expand]
    rfl
  · rw [hr, assemble_mtcrweird_eq_some_iff.2 ⟨_, _, _, _, _, hc, raOperand?_reg_zero, mOperand?_num (by decide),
      maskModeOperand?_pair hv (by decide), rfl⟩, Option.map_some, Option.map_some, ← encode_expand]
    rfl

end Sys2Proof.Machine
end

section
/-! PROOFS. Where the vectorised forms answer, and what they refuse (45_vectorised.md R130 to R138). -/

namespace Sys2Proof.Machine

/-- The bounds every machine's files meet (00_scope.md R7). -/
theorem VecFiles.legal_iff {f : VecFiles} : f.legal = true ↔ 8 ≤ f.crf.length ∧ 32 ≤ f.gpr.length := by
  simp [VecFiles.legal]

/-- `sv.crrweird` answers exactly under these conditions. -/
theorem execSvCrrweird_answers_iff {draw : Word} {a : SvCrrweird} {f : VecFiles} :
    (∃ g, execSvCrrweird draw a f = .next g) ↔
      a.described = true ∧ f.legal = true ∧ a.rtElwidth = .default ∧ (a.rtIsVec = true ∨ a.vl ≤ 64) ∧ a.outside f = false := by
  simp [execSvCrrweird_eq_next]

/-- `sv.mtcrweird` answers exactly under these conditions. -/
theorem execSvMtcrweird_answers_iff {a : SvMtcrweird} {f : VecFiles} :
    (∃ g, execSvMtcrweird a f = .next g) ↔
      ∃ k, a.described = true ∧ a.dm = some k ∧ f.legal = true ∧ a.vl ≤ 64 ∧ a.outside k f = false := by
  simp [execSvMtcrweird_eq_next]

/-- A mask lies in the file unless it is a register past its end. -/
theorem SvMask.outside_eq_false_iff {k : SvMask} {f : VecFiles} :
    k.outside f = false ↔ ∀ n inverted, k = .gpr n inverted → n < f.gpr.length := by
  cases k <;> simp [SvMask.outside]

/-- No vectorised form faults (decision D26). -/
theorem execSv_ne_fault (draw : Word) (i : SvInstr) (f : VecFiles) (x : Fault) : execSv draw i f ≠ .fault x := by
  cases i with
  | crrweird a =>
    show execSvCrrweird draw a f ≠ .fault x
    unfold execSvCrrweird
    (repeat' split) <;> nofun
  | mtcrweird b =>
    show execSvMtcrweird b f ≠ .fault x
    unfold execSvMtcrweird
    (repeat' split) <;> nofun
  | crweird => nofun
  | crweirder => nofun

/-- A vectorised form that gives no answer is refused. -/
theorem execSv_eq_refused_of_not_answers {draw : Word} {i : SvInstr} {f : VecFiles} (h : ¬∃ g, execSv draw i f = .next g) :
    ∃ r, execSv draw i f = .refused r := by
  cases he : execSv draw i f with
  | next g => exact absurd ⟨g, he⟩ h
  | fault x => exact absurd he (execSv_ne_fault draw i f x)
  | refused r => exact ⟨r, rfl⟩

/-- Settles O57: the conditions under which the two forms answer, each written out. -/
theorem vectorFormsAnswerExactlyWhereDescribed : Obligations.VectorFormsAnswerExactlyWhereDescribed := by
  refine fun draw f => ⟨fun a => ?_, fun b => ?_, fun i x => execSv_ne_fault draw i f x⟩
  · refine execSvCrrweird_answers_iff.trans ?_
    rw [SvCrrweird.described_iff, VecFiles.legal_iff, SvCrrweird.outside_eq_false]
    tauto
  · refine execSvMtcrweird_answers_iff.trans ?_
    simp only [SvMtcrweird.described_iff, VecFiles.legal_iff, SvMtcrweird.outside_eq_false, SvMask.outside_eq_false_iff]
    cases b.dm with
    | none => simp
    | some k =>
      simp only [Option.some.injEq]
      constructor
      · rintro ⟨_, hd, rfl, hf, hvl, hin⟩
        tauto
      · intro h
        refine ⟨k, ?_⟩
        tauto

/-- A `sv.crrweird` the spec does not describe is refused by name (93 U13). -/
theorem execSv_crrweird_of_not_described {a : SvCrrweird} (draw : Word) (f : VecFiles) (h : a.described = false) :
    execSv draw (.crrweird a) f = .refused (.svNotDescribed "sv.crrweird") := by
  simp [execSv, execSvCrrweird, h]

/-- A `sv.mtcrweird` the spec does not describe, or without a destination predicate, is refused by name (93 U13, U14). -/
theorem execSv_mtcrweird_of_not_described {b : SvMtcrweird} (draw : Word) (f : VecFiles)
    (h : b.described = false ∨ b.dm = none) :
    execSv draw (.mtcrweird b) f = .refused (.svNotDescribed "sv.mtcrweird") := by
  rcases h with h | h
  · simp [execSv, execSvMtcrweird, h]
  · cases hd : b.described <;> simp [execSv, execSvMtcrweird, h, hd]

/-- Settles O56: by name what is not described; of the rest, each clause breaks a condition of answering. -/
theorem undescribedVectorFormsAreRefused : Obligations.UndescribedVectorFormsAreRefused := by
  intro draw f a b
  obtain ⟨ha, hb, -⟩ := vectorFormsAnswerExactlyWhereDescribed draw f
  refine ⟨rfl, rfl, fun h => ?_, fun h => ?_, fun h => ?_, fun hv hvl => ?_, fun hvl => ?_, fun h => ⟨?_, ?_⟩, fun i hi h => ?_,
    fun i n inverted hi h => ?_⟩
  · refine execSv_mtcrweird_of_not_described draw f ?_
    rw [← Bool.not_eq_true, SvMtcrweird.described_iff]
    by_contra hcon
    simp only [not_or, not_not] at hcon
    obtain ⟨⟨h1, h2, h3, h4, h5, h6, h7, h8⟩, h9⟩ := hcon
    simp [h1, h2, h3, h4, h5, h6, h7, h8, h9] at h
  · refine execSv_crrweird_of_not_described draw f ?_
    rw [← Bool.not_eq_true, SvCrrweird.described_iff]
    rintro ⟨h1, h2, h3, h4, h5⟩
    simp [h1, h2, h3, h4, h5] at h
  all_goals refine execSv_eq_refused_of_not_answers fun hg => ?_
  · obtain ⟨-, -, -, -, -, hw, -⟩ := (ha a).1 hg
    exact h hw
  · obtain ⟨-, -, -, -, -, -, -, -, hvec, -⟩ := (ha a).1 hg
    rw [hv] at hvec
    simp at hvec
    omega
  · obtain ⟨-, -, -, -, -, -, -, -, -, -, -, hle, -⟩ := (hb b).1 hg
    omega
  · obtain ⟨-, -, -, -, -, -, hc, hr, -⟩ := (ha a).1 hg
    omega
  · obtain ⟨-, -, -, -, -, -, -, -, -, hc, hr, -⟩ := (hb b).1 hg
    omega
  · obtain ⟨-, -, -, -, -, -, -, -, -, hin⟩ := (ha a).1 hg
    obtain ⟨hbb, hrt⟩ := hin i hi
    omega
  · obtain ⟨-, -, -, -, -, -, -, -, -, -, -, -, hin⟩ := (hb b).1 hg
    obtain ⟨hbf, hra, hmask⟩ := hin i hi
    rcases h with h | h | ⟨hdm, hn⟩
    · omega
    · omega
    · have := hmask n inverted hdm
      omega

end Sys2Proof.Machine
end

section
/-! PROOFS. What the vectorised forms write (45_vectorised.md R131 to R137). -/

namespace Sys2Proof.Machine

/-- Two registers joined under a mask: the first outside it, the second inside. -/
theorem getLsbD_join (x d o : Word) (j : Nat) :
    ((x &&& ~~~o) ||| (d &&& o)).getLsbD j = if o.getLsbD j then d.getLsbD j else x.getLsbD j := by
  by_cases hj : j < 64
  · rw [BitVec.getLsbD_or, BitVec.getLsbD_and, BitVec.getLsbD_and, BitVec.getLsbD_not, decide_eq_true hj]
    cases o.getLsbD j <;> simp
  · simp [BitVec.getLsbD_of_ge _ j (Nat.le_of_not_lt hj)]

/-- The bits left open by a vector destination: the pack positions past `VL` (45_vectorised.md R132). -/
theorem getLsbD_svOpenBits_vector {a : SvCrrweird} (hv : a.rtIsVec = true) (j : Nat) :
    (svOpenBits a).getLsbD j = true ↔
      a.vl % packSize a.bbElwidth ≠ 0 ∧ a.vl % packSize a.bbElwidth ≤ j ∧ j < packSize a.bbElwidth := by
  obtain ⟨-, hp⟩ := packSize_pos a.bbElwidth
  simp only [svOpenBits, hv, if_true]
  by_cases h0 : a.vl % packSize a.bbElwidth = 0
  · simp [h0]
  · rw [if_neg h0, BitVec.getLsbD_and, getLsbD_lowBits (by omega), BitVec.getLsbD_shiftLeft, BitVec.getLsbD_allOnes]
    simp only [Bool.and_eq_true, Bool.not_eq_true', decide_eq_true_eq, decide_eq_false_iff_not]
    omega

/-- The bits left open by a scalar destination: those from `VL` up (45_vectorised.md R133, decision D28). -/
theorem getLsbD_svOpenBits_scalar {a : SvCrrweird} (hv : a.rtIsVec = false) (j : Nat) :
    (svOpenBits a).getLsbD j = true ↔ a.vl ≤ j ∧ j < 64 := by
  simp only [svOpenBits, hv, Bool.false_eq_true, if_false, BitVec.getLsbD_shiftLeft, BitVec.getLsbD_allOnes, Bool.and_eq_true,
    Bool.not_eq_true', decide_eq_true_eq, decide_eq_false_iff_not]
  omega

/-- An answer of `sv.crrweird` bit by bit: the open bits of the open register are those of `draw`, all others those of the
loop (log 18). -/
theorem getLsbD_of_execSvCrrweird {draw : Word} {a : SvCrrweird} {f g : VecFiles} (h : execSvCrrweird draw a f = .next g) :
    g.crf = f.crf ∧ g.gpr.length = f.gpr.length ∧ ∀ r j, (g.gpr.getD r 0#64).getLsbD j =
      if (r = svOpenReg a ∧ svOpenReg a < f.gpr.length) ∧ (svOpenBits a).getLsbD j = true then draw.getLsbD j
      else ((svLoop a f a.vl).getD r 0#64).getLsbD j := by
  obtain ⟨-, -, -, -, -, rfl⟩ := execSvCrrweird_eq_next.1 h
  refine ⟨rfl, by simp, fun r j => ?_⟩
  rw [getD_set, length_svLoop]
  by_cases hr : r = svOpenReg a ∧ svOpenReg a < f.gpr.length
  · rw [if_pos hr, getLsbD_join]
    obtain ⟨rfl, hlt⟩ := hr
    simp only [hlt, true_and]
  · rw [if_neg hr, if_neg fun hopen => hr hopen.1]

/-- A register whose open bits are none is the one the loop leaves. -/
theorem getD_of_execSvCrrweird {draw : Word} {a : SvCrrweird} {f g : VecFiles} (h : execSvCrrweird draw a f = .next g) {r : Nat}
    (hr : r = svOpenReg a → ∀ j, (svOpenBits a).getLsbD j ≠ true) :
    g.gpr.getD r 0#64 = (svLoop a f a.vl).getD r 0#64 := by
  obtain ⟨-, -, hbit⟩ := getLsbD_of_execSvCrrweird h
  refine BitVec.eq_of_getLsbD_eq fun j _ => ?_
  rw [hbit, if_neg fun hopen => hr hopen.1.1 j hopen.2]

/-- Settles O52: an element's bit is never open, and the loop leaves it the element's result; a register past the pack has no
open bit, and the loop does not write it. -/
theorem vectorDestinationPacksResults : Obligations.VectorDestinationPacksResults := by
  intro draw a f g hv h
  obtain ⟨hcrf, hlen, hbit⟩ := getLsbD_of_execSvCrrweird h
  obtain ⟨-, -, -, -, hout, -⟩ := execSvCrrweird_eq_next.1 h
  have hin : ∀ i, i < a.vl → a.rt + i / packSize a.bbElwidth < f.gpr.length := fun i hi => by
    have := (SvCrrweird.outside_eq_false.1 hout i hi).2
    rwa [if_pos hv] at this
  obtain ⟨hp, -⟩ := packSize_pos a.bbElwidth
  have hreg : svOpenReg a = a.rt + a.vl / packSize a.bbElwidth := if_pos hv
  have hdm := Nat.div_add_mod' a.vl (packSize a.bbElwidth)
  refine ⟨hcrf, hlen, fun k j i hj hi hvl => ?_, fun k j hk hj => ?_, fun r hr => ?_⟩
  · have hclosed : ¬((a.rt + k = svOpenReg a ∧ svOpenReg a < f.gpr.length) ∧ (svOpenBits a).getLsbD j = true) := by
      rw [getLsbD_svOpenBits_vector hv, hreg]
      rintro ⟨⟨hk, -⟩, -, hmod, -⟩
      obtain rfl : k = a.vl / packSize a.bbElwidth := by omega
      omega
    rw [hbit, if_neg hclosed, getLsbD_svLoop_vector hv f _ hin, if_pos ⟨hj, hi ▸ hvl⟩, ← hi]
    rfl
  · have hclosed : ¬((a.rt + k = svOpenReg a ∧ svOpenReg a < f.gpr.length) ∧ (svOpenBits a).getLsbD j = true) := by
      rw [getLsbD_svOpenBits_vector hv]
      omega
    rw [hbit, if_neg hclosed, getLsbD_svLoop_vector hv f _ hin, if_neg (by omega), if_pos ⟨hk, hj⟩]
  · have hnot : ∀ i, i < a.vl → r ≠ if a.rtIsVec then a.rt + i / packSize a.bbElwidth else a.rt := by
      rintro i hi rfl
      rw [if_pos hv] at hr
      have := hr.resolve_left (Nat.not_lt.2 (Nat.le_add_right _ _)) _ rfl
      have := Nat.div_mul_le_self i (packSize a.bbElwidth)
      omega
    rw [getD_of_execSvCrrweird h, getD_svLoop_other f _ r hnot]
    rintro rfl j hj
    obtain ⟨hmod, -⟩ := (getLsbD_svOpenBits_vector hv j).1 hj
    rw [hreg] at hr
    have := hr.resolve_left (Nat.not_lt.2 (Nat.le_add_right _ _)) _ rfl
    omega

/-- Settles O53: below `VL` no bit is open and the loop leaves bit `i` the result of element `i`; from `VL` up every bit is
open; no other register is written. -/
theorem scalarDestinationCollectsBits : Obligations.ScalarDestinationCollectsBits := by
  intro draw a f g hv h
  obtain ⟨hcrf, hlen, hbit⟩ := getLsbD_of_execSvCrrweird h
  obtain ⟨-, -, -, hvl, hout, -⟩ := execSvCrrweird_eq_next.1 h
  have h64 : a.vl ≤ 64 := hvl.resolve_left (by simp [hv])
  have hreg : svOpenReg a = a.rt := if_neg (by simp [hv])
  have hin : a.vl = 0 ∨ a.rt < f.gpr.length := by
    refine (Nat.eq_zero_or_pos a.vl).imp_right fun hpos => ?_
    simpa [hv] using (SvCrrweird.outside_eq_false.1 hout 0 hpos).2
  refine ⟨hcrf, hlen, fun i hi => ?_, fun i hi hrt => ?_, fun r hr => ?_⟩
  · have hclosed : (svOpenBits a).getLsbD i ≠ true := by
      rw [Ne, getLsbD_svOpenBits_scalar hv]
      omega
    rw [hbit, if_neg fun hopen => hclosed hopen.2, getLsbD_svLoop_scalar hv f _ hin h64, if_pos hi]
    rfl
  · by_cases hi64 : i < 64
    · have hopen := (getLsbD_svOpenBits_scalar hv i).2 ⟨hi, hi64⟩
      rw [hbit, if_pos ⟨⟨hreg.symm, hreg ▸ hrt⟩, hopen⟩]
    · rw [BitVec.getLsbD_of_ge _ i (Nat.le_of_not_lt hi64), BitVec.getLsbD_of_ge _ i (Nat.le_of_not_lt hi64)]
  · rw [getD_of_execSvCrrweird h fun he => absurd (he.trans hreg) hr]
    exact getD_svLoop_other f _ r fun i _ => by simpa [hv] using hr

/-- Writing back the value read changes nothing. -/
theorem list_set_getD_self {α : Type} (l : List α) (i : Nat) (d : α) : l.set i (l.getD i d) = l := by
  by_cases hi : i < l.length
  · simp [hi]
  · exact List.set_eq_of_length_le (Nat.le_of_not_lt hi)

/-- One result in a cleared pack of one is the scalar result, zero-extended (45_vectorised.md R132). -/
theorem setLsb0_zero_and_lowBits_one (v : Word) (b : Bool) : setLsb0 (v &&& lowBits 1) 0 b = zext64 b := by
  refine BitVec.eq_of_getLsbD_eq fun j hj => ?_
  rw [getLsbD_setLsb0 _ _ (by omega), BitVec.getLsbD_and, getLsbD_lowBits (by omega)]
  by_cases h : j = 0
  · subst h
    cases b <;> rfl
  · cases b <;> simp [h, zext64, BitVec.getLsbD_one]

/-- The files after the scalar `crrweird` with `Rc = 0`. -/
theorem files_of_exec_crrweird {rt : GprNum} {bfa : CrfNum} {m : Bool} {mask mode : CrField} {s t : State}
    (h : exec (.crrweird rt bfa m mask mode false) s = .next t) :
    t.files = ⟨s.gpr.toList.set rt.toNat (zext64 (reduce1 m (match4 mask mode (s.readCrf bfa)))), s.crf.toList⟩ := by
  cases h
  simp [State.files, State.writeGpr, Vector.toList_set]

/-- Settles O54: the loop runs once and clears the register but for the result; no bit is left open. -/
theorem oneElementIsTheScalarInstruction : Obligations.OneElementIsTheScalarInstruction := by
  intro draw a s t rt bfa hd hv hw hp hvl hrt hbb h
  have hpack : packSize a.bbElwidth = 1 := by rw [hp]; rfl
  have hcrf : s.files.crf.length = 8 := by simp [State.files]
  have hgpr : s.files.gpr.length = 32 := by simp [State.files]
  have hbound := rt.isLt
  have hbound' := bfa.isLt
  have hfield : s.files.crf.getD bfa.toNat 0#4 = s.readCrf bfa := by
    rw [List.getD_eq_getElem _ _ (hcrf ▸ hbound')]
    rfl
  have hloop : svLoop a s.files 1 = t.files.gpr := by
    rw [files_of_exec_crrweird h, ← hfield]
    simp [svLoop, svWrite, hv, hpack, setLsb0_zero_and_lowBits_one, svResult, hrt, hbb, State.files]
  have hopen : svOpenBits a = 0#64 := by simp [svOpenBits, hv, hpack, Nat.mod_one]
  refine execSvCrrweird_eq_next.2 ⟨hd, VecFiles.legal_iff.2 ⟨hcrf.ge, hgpr.ge⟩, hw, .inl hv, ?_, ?_⟩
  · refine SvCrrweird.outside_eq_false.2 fun i hi => ?_
    obtain rfl : i = 0 := by omega
    rw [hcrf, hgpr]
    simp [hv, hrt, hbb, hbound, hbound']
  · rw [hvl, hloop, hopen]
    simp only [BitVec.not_zero, BitVec.and_allOnes, BitVec.and_zero, BitVec.or_zero, list_set_getD_self]
    rw [files_of_exec_crrweird h]
    rfl

/-- The field of an element in closed form (45_vectorised.md R135): on the bit of `(RA|0)`, or zero under the predicate. -/
theorem svField_eq (a : SvMtcrweird) (k : SvMask) (f : VecFiles) (i : Nat) :
    svField a k f i =
      if k.bit f i = true then
        (if a.ra ≠ 0 ∧ (f.gpr.getD a.ra 0#64).getLsbD i = true then a.mask &&& a.mode else a.mask &&& ~~~a.mode)
      else 0#4 := by
  simp only [svField, match4_replicate4]
  by_cases hra : a.ra = 0 <;> simp [hra]

/-- Settles O55: the form answers, and each element's field is the one in closed form. -/
theorem predicatedMtcrweirdFields : Obligations.PredicatedMtcrweirdFields := by
  intro draw a f n bits inverted hd hdm h8 h32 h64 hbf hra
  obtain ⟨k, hk, hin, hbit⟩ : ∃ k, a.dm = some k ∧ k.outside f = false ∧
      ∀ i, k.bit f i = true ↔ bits.getLsbD i ≠ inverted := by
    rcases hdm with ⟨hdm, hn, rfl⟩ | hdm
    · exact ⟨_, hdm, by simpa [SvMask.outside] using hn, fun i => by simp [SvMask.bit]⟩
    · exact ⟨_, hdm, rfl, fun i => by simp [SvMask.bit]⟩
  have hout : a.outside k f = false := SvMtcrweird.outside_eq_false.2 fun i hi => ⟨by omega, hra, hin⟩
  have hg := execSvMtcrweird_eq_next.2 ⟨k, hd, hk, VecFiles.legal_iff.2 ⟨h8, h32⟩, h64, hout, rfl⟩
  refine ⟨_, hg, rfl, length_svFields a k f a.vl, fun i hi => ?_, fun r hr => ?_⟩
  · rw [getD_svFields a k f a.vl hbf, if_pos (by omega), Nat.add_sub_cancel_left, svField_eq]
    simp only [hbit]
  · rw [getD_svFields a k f a.vl hbf, if_neg (by omega)]

end Sys2Proof.Machine
end
